-- ==== Sys2Proof/Word.lean ====
section
/-! DEFINITION. The machine's word: a byte (00_scope.md R6, R10). A program position is a plain natural:
00_scope.md R10 allows unbounded naturals, since no rule produces a position above `PLEN` (log entry 1). -/

namespace Sys2Proof

/-- Every data value: stack entries, registers, `EOFVAL`, input, output and program bytes
(00_scope.md R6 `DW` = 8, R10: unsigned, no signed reading anywhere). -/
abbrev Byte := BitVec 8

end Sys2Proof
end

