-- ==== Sys2Proof/Config.lean ====
section
/-! DEFINITION. What an implementation fixes (00_scope.md R7): `PCW`, `DCAP`, `CCAP` and `STR_ESC`.
They stay fields of a record that State carries, so that every statement holds for every value of them
(log entries 1, 2, 3). The spec leaves no value of this machine free, so there is no free-value constant. -/

namespace Sys2Proof

/-- A capacity in entries; `none` is the spec's "or unbounded" (00_scope.md R7, D2, D3). -/
abbrev Capacity := Option Nat

/-- `len = cap`: the test that makes `Push` and `CPush` raise `ALLOC` (20_memory.md R42, R43).
An unbounded stack is never full. -/
def Capacity.isFull : Capacity → Nat → Bool
  | none, _ => false
  | some c, len => len == c

/-- `len <= cap` (10_state.md R33; the room test of 46_literals.md R141). -/
def Capacity.holds : Capacity → Nat → Bool
  | none, _ => true
  | some c, len => decide (len ≤ c)

/-- The implementation parameters of 00_scope.md R7. -/
structure Config where
  /-- `PCW`: width in bits of `pc` and of call-stack entries; `none` is no bound (log entry 1). -/
  pcw : Option Nat
  /-- `DCAP`: capacity of each of the 256 data stacks. -/
  dcap : Capacity
  /-- `CCAP`: capacity of each of the two call stacks. -/
  ccap : Capacity
  /-- `STR_ESC`: the escape byte inside string literals, if any (46_literals.md R140). -/
  strEsc : Option Byte
  deriving DecidableEq, Repr

namespace Config

/-- `PLEN < 2^PCW` (00_scope.md R7): a longer program is refused (92_eei_decisions.md D1). -/
def fits (c : Config) (plen : Nat) : Bool :=
  match c.pcw with
  | none => true
  | some w => decide (plen < 2 ^ w)

/-- The constraints of the table of 00_scope.md R7: each bound that is given is at least 1. -/
def wf (c : Config) : Bool :=
  c.pcw.all (1 ≤ ·) && c.dcap.all (1 ≤ ·) && c.ccap.all (1 ≤ ·)

/-- DESIGN CHOICE (log entries 1, 2, 3): the parameters State.reset carries, the conventions of
95_test_vectors.md: capacities "large enough not to matter", `STR_ESC = 0x5C`. -/
def standard : Config := { pcw := none, dcap := none, ccap := none, strEsc := some 0x5C#8 }

end Config

end Sys2Proof
end

