-- ==== Sys2Proof/Machine/State.lean ====
section
/-! DEFINITION. The state of the machine as plain data (10_state.md R20 to R29), the reasons a step can stop, and
the state after reset (R32). -/

namespace Sys2Proof.Machine

/-- The program space (20_memory.md R40, R48): the listed bytes, addresses strictly rising, no entry equal to
what an unlisted position reads as (`Memory.unlisted`, Machine/Ops.lean; log entry 9). -/
abbrev Memory := List Host.Cell

/-- The run status (10_state.md R28). -/
inductive RunStatus where
  /-- The machine takes steps. -/
  | running
  /-- `pc` reached `PLEN`. -/
  | haltOk
  /-- A runtime or structural error was raised. -/
  | faultErr
  /-- A push found its stack full. -/
  | faultAlloc
  deriving DecidableEq, Repr

/-- The eight fault kinds of the machine (60_exceptions.md R154), in the order of their codes. -/
inductive FaultKind where
  | stackEmpty
  | unmatchedClose
  | unmatchedOpen
  | unclosedString
  | unclosedNumeric
  | numericBadChar
  | divZero
  | alloc
  deriving DecidableEq, Repr

/-- The fault record (60_exceptions.md R153). -/
structure FaultRecord where
  /-- One of the eight kinds. -/
  kind : FaultKind
  /-- The position of the faulting instruction's opcode byte. -/
  pos : Nat
  /-- `prog[pos]`. -/
  ch : Byte
  /-- The bad byte's position for `NUMERIC_BAD_CHAR`, `pos` for every other kind. -/
  aux : Nat
  deriving DecidableEq, Repr

/-- One answer of the environment to an input request (43_io.md R112). -/
inductive InputAnswer where
  | byte (b : Byte)
  | eof
  deriving DecidableEq, Repr

/-- Which of the two call stacks (10_state.md R24). -/
inductive CallStack where
  /-- `sq`, for `[` and `]`. -/
  | square
  /-- `cu`, for the curly pair. -/
  | curly
  deriving DecidableEq, Repr

/-- The machine's state: the core's tuple of 10_state.md R20, the parameters of a run (R26, R27, 00_scope.md R7), which
no step writes, and the environment's two streams (R29). -/
structure State where
  /-- 256 registers (R21). -/
  reg : Vector Byte 256
  /-- 256 data stacks, bottom first, top last (R22). -/
  stk : Vector (List Byte) 256
  /-- The stack selector (R23). -/
  sel : Byte
  /-- The square call stack, bottom first, top last (R24). -/
  sq : List Nat
  /-- The curly call stack, bottom first, top last (R24). -/
  cu : List Nat
  /-- The program counter (R25). -/
  pc : Nat
  /-- The run status (R28). -/
  run : RunStatus
  /-- The fault record, absent until a fault is raised (R28). -/
  fault : Option FaultRecord
  /-- The program's bytes (R26). -/
  prog : Memory
  /-- `PLEN` (R26). -/
  plen : Nat
  /-- `EOFVAL` (R27). -/
  eofval : Byte
  /-- `PCW`, `DCAP`, `CCAP`, `STR_ESC` (00_scope.md R7). -/
  cfg : Config
  /-- The answers the environment has supplied and the core has not consumed, oldest first (R29; log entry 7). -/
  input : List InputAnswer
  /-- All bytes emitted so far, oldest first (R29). -/
  out : List Byte
  deriving DecidableEq, Repr

/-- Why there is no next state. None of these is a fault of the machine: a fault of the machine is a next state
with `run` and `fault` written (60_exceptions.md R152; log entry 4). -/
inductive Fault where
  /-- Raised by `step` when `run` is not `RUNNING`: "With `run` not `RUNNING` there is no step" (30_encoding.md
  R69, 10_state.md R28). Safe: the hardware takes no step either. -/
  | stopped (status : RunStatus)
  /-- Raised by `execInb` when the environment has supplied no answer: `,` waits and has no enabled step, and no
  state changes (43_io.md R115, 93_implementation_defined.md I4). Safe: the wait is stuck until an answer is added to
  `input` (log entry 6). -/
  | inputWait
  /-- Raised by a read of a program position at or beyond `PLEN`, which 20_memory.md R41 says never happens. Safe: the
  model stops; no state that a run reaches raises it (log entry 14). -/
  | noSuchPosition
  deriving DecidableEq, Repr

/-- Why the model gives no meaning. -/
inductive Refusal where
  /-- Raised by an arm of exec whose instruction has no meaning yet. Safe. -/
  | notModelled (mnemonic : String)
  /-- Raised by `step` when `PLEN` is not below `2^PCW`: 93_implementation_defined.md U6 treats a program longer than
  `2^PCW - 1` bytes as refused. Safe. -/
  | programTooLong
  deriving DecidableEq, Repr

namespace State

/-- The state after reset (10_state.md R32). The fields R32 calls "not reset; supplied by the environment" stand at
no program, `EOFVAL`'s default 0 and the parameters of `Config.standard` (log entries 2, 3, 7, 10). -/
def reset : State :=
  { reg := Vector.replicate 256 0#8
    stk := Vector.replicate 256 []
    sel := 0#8
    sq := []
    cu := []
    pc := 0
    run := .running
    fault := none
    prog := []
    plen := 0
    eofval := 0#8
    cfg := Config.standard
    input := []
    out := [] }

end State

end Sys2Proof.Machine
end

