-- ==== Sys2Proof/Machine/Ops.lean ====
section
/-! DEFINITION. The named operations: the program space (20_memory.md R41), registers (R44), the data stacks (R42), the
call stacks (R43), input and output (43_io.md R110, R112), taking a fault (60_exceptions.md R152, R153), and what the
environment may do (70_reset_and_hazards.md R170, R173). -/

namespace Sys2Proof.Machine

/-! ### The program space -/

namespace Memory

/-- What an unlisted position reads as. DESIGN CHOICE (log entry 9): a way of writing a program down, since the
loader gives every byte below `PLEN`. -/
def unlisted : Byte := 0x00#8

/-- The byte listed at `a`, or `unlisted`. -/
def read (m : Memory) (a : Nat) : Byte :=
  match m with
  | [] => unlisted
  | (x, v) :: rest => if x = a then v else read rest a

/-- Store one byte, keeping the canonical form. No instruction uses it (20_memory.md R41: `MemWrite` is never used);
the loader does. -/
def write (m : Memory) (a : Nat) (b : Byte) : Memory :=
  match m with
  | [] => if b = unlisted then [] else [(a, b)]
  | (x, v) :: rest =>
    if a < x then (if b = unlisted then (x, v) :: rest else (a, b) :: (x, v) :: rest)
    else if a = x then (if b = unlisted then rest else (a, b) :: rest)
    else (x, v) :: write rest a b

/-- Store bytes at successive positions from `a` on. -/
def writeBytes (m : Memory) (a : Nat) : List Byte → Memory
  | [] => m
  | b :: bs => writeBytes (write m a b) (a + 1) bs

/-- The canonical form: addresses strictly rising and no entry equal to what an unlisted position reads as. -/
abbrev wf (m : Memory) : Prop := m.Pairwise (fun c d => c.1 < d.1) ∧ ∀ c ∈ m, c.2 ≠ unlisted

end Memory

/-- R154: the numeric code of a fault kind. -/
def FaultKind.code : FaultKind → Nat
  | .stackEmpty => 1
  | .unmatchedClose => 2
  | .unmatchedOpen => 3
  | .unclosedString => 4
  | .unclosedNumeric => 5
  | .numericBadChar => 6
  | .divZero => 7
  | .alloc => 8

/-- R152: `FAULT_ALLOC` for `ALLOC`, `FAULT_ERR` for every other kind. -/
def FaultKind.status : FaultKind → RunStatus
  | .alloc => .faultAlloc
  | .stackEmpty | .unmatchedClose | .unmatchedOpen | .unclosedString | .unclosedNumeric | .numericBadChar
  | .divZero => .faultErr

/-- R151: the exit status a terminal value of `run` stands for. -/
def RunStatus.exitStatus : RunStatus → Option Nat
  | .running => none
  | .haltOk => some 0
  | .faultErr => some 1
  | .faultAlloc => some 2

namespace State

/-- `MemRead(a, 1)`, `prog[a]`, defined for `0 <= a < PLEN` only (20_memory.md R41). -/
def memRead (s : State) (a : Nat) : Option Byte :=
  if a < s.plen then some (s.prog.read a) else none

/-- The program bytes at `p, p + 1, ..., PLEN - 1`: what a forward scan from `p` can see. -/
def progFrom (s : State) (p : Nat) : List Byte :=
  (List.range' p (s.plen - p)).map s.prog.read

/-! ### Registers (20_memory.md R44) -/

/-- `reg[i]`. -/
def readReg (s : State) (i : Byte) : Byte := s.reg[i.toNat]'i.isLt

/-- `reg[i] <- v`. -/
def writeReg (s : State) (i v : Byte) : State := { s with reg := s.reg.set i.toNat v i.isLt }

/-! ### The program counter -/

/-- `pc <- t` (10_state.md R25). -/
def setPc (s : State) (t : Nat) : State := { s with pc := t }

/-- `pc <- pc + 1`: the fall-through of every one-byte instruction (10_state.md R25). -/
def advance (s : State) : State := s.setPc (s.pc + 1)

/-! ### The current data stack (20_memory.md R42) -/

/-- `S = stk[sel]` (10_state.md R22). -/
def cur (s : State) : List Byte := s.stk[s.sel.toNat]'s.sel.isLt

/-- Replace the current stack; every other stack stays. -/
def setCur (s : State) (l : List Byte) : State := { s with stk := s.stk.set s.sel.toNat l s.sel.isLt }

/-- `Push(v)`: `ALLOC` exactly when `len(S) = DCAP` (log entry 16). -/
def push (s : State) (v : Byte) : Except FaultKind State :=
  if s.cfg.dcap.isFull s.cur.length then .error .alloc else .ok (s.setCur (s.cur ++ [v]))

/-- `Pop()`. -/
def pop (s : State) : Except FaultKind (Byte × State) :=
  match s.cur.getLast? with
  | none => .error .stackEmpty
  | some v => .ok (v, s.setCur s.cur.dropLast)

/-- `Peek()`. -/
def peek (s : State) : Except FaultKind Byte :=
  match s.cur.getLast? with
  | none => .error .stackEmpty
  | some v => .ok v

/-- The whole-body push of 46_literals.md R141: room for all of it is tested first, then the bytes go on from the last
to the first, so that the first ends on top. -/
def pushBody (s : State) (body : List Byte) : Except FaultKind State :=
  if s.cfg.dcap.holds (s.cur.length + body.length) then .ok (s.setCur (s.cur ++ body.reverse))
  else .error .alloc

/-! ### The call stacks (20_memory.md R43) -/

/-- The entries of a call stack. -/
def calls (s : State) : CallStack → List Nat
  | .square => s.sq
  | .curly => s.cu

/-- Replace a call stack. -/
def setCalls (s : State) (c : CallStack) (l : List Nat) : State :=
  match c with
  | .square => { s with sq := l }
  | .curly => { s with cu := l }

/-- `CPush(c, p)`: `ALLOC` exactly when `len(c) = CCAP` (log entry 16). -/
def cpush (s : State) (c : CallStack) (p : Nat) : Except FaultKind State :=
  if s.cfg.ccap.isFull (s.calls c).length then .error .alloc else .ok (s.setCalls c (s.calls c ++ [p]))

/-- `CPop(c)`. -/
def cpop (s : State) (c : CallStack) : Except FaultKind (Nat × State) :=
  match (s.calls c).getLast? with
  | none => .error .unmatchedClose
  | some p => .ok (p, s.setCalls c (s.calls c).dropLast)

/-! ### Input and output (43_io.md) -/

/-- `Emit(b)` for each byte in order (R110): the sink always accepts (log entry 8). -/
def emit (s : State) (bs : List Byte) : State := { s with out := s.out ++ bs }

/-- The byte `,` pushes for an answer (R112). -/
def answerByte (s : State) : InputAnswer → Byte
  | .byte b => b
  | .eof => s.eofval

/-- Consume the oldest answer, leaving `rest` (R112). -/
def dropAnswer (s : State) (rest : List InputAnswer) : State := { s with input := rest }

/-! ### Taking a fault (60_exceptions.md R152, R153) -/

/-- `raise Fault(kind)`: `run` and `fault` are written and nothing else changes, `pc` included. The record holds the
instruction's own position and byte. A position outside the program has no byte to record (log entry 14). -/
def raise (s : State) (kind : FaultKind) (aux : Nat) : Host.Outcome State Fault Refusal :=
  match s.memRead s.pc with
  | none => .fault .noSuchPosition
  | some ch => .next { s with run := kind.status, fault := some ⟨kind, s.pc, ch, aux⟩ }

/-- 00_scope.md R11: an instruction works on a copy of the state; where a primitive raised, the copy is discarded and
the fault is recorded in `s`; otherwise the copy is committed. -/
def settle (s : State) (r : Except FaultKind State) : Host.Outcome State Fault Refusal :=
  match r with
  | .ok t => .next t
  | .error kind => s.raise kind s.pc

/-! ### What the environment may do -/

/-- Load a program (70_reset_and_hazards.md R173): its bytes at positions 0 on, and `PLEN` its length. -/
def load (s : State) (program : List Byte) : State :=
  { s with prog := Memory.writeBytes [] 0 program, plen := program.length }

/-- The environment supplies one more answer (43_io.md R112). -/
def answer (s : State) (a : InputAnswer) : State := { s with input := s.input ++ [a] }

/-- Reset, usable in any state (70_reset_and_hazards.md R170): the core's state as 10_state.md R32 gives it, the output
history empty; `prog`, `PLEN`, `EOFVAL` and the implementation's parameters untouched. The input source is the
environment's and is left as it is (log entry 17). -/
def hardReset (s : State) : State :=
  { reset with prog := s.prog, plen := s.plen, eofval := s.eofval, cfg := s.cfg, input := s.input }

end State

end Sys2Proof.Machine
end

