-- ==== Sys2Proof/Machine/Operands.lean ====
section
/-! DEFINITION. The operand forms: two popped entries (41_arithmetic_logic.md R90), a numeric literal's value
(46_literals.md R142), a byte's decimal text (43_io.md R114). The other forms are the primitives of Machine/Ops.lean. -/

namespace Sys2Proof.Machine

/-- The accumulator of 46_literals.md R142 after the digits `ds`, each step modulo 256. -/
def numValue (ds : List Byte) : Byte := ds.foldl (fun acc c => acc * 10#8 + (c - 0x30#8)) 0#8

/-- The ASCII digit of `n`, for `n` below 10. -/
def digitChar (n : Nat) : Byte := BitVec.ofNat 8 (0x30 + n)

/-- `Decimal(v)` (43_io.md R114): base 10, most significant digit first, no leading zeros, `0` for zero. -/
def decimal (v : Byte) : List Byte :=
  (if 100 ≤ v.toNat then [digitChar (v.toNat / 100)] else [])
  ++ (if 10 ≤ v.toNat then [digitChar (v.toNat / 10 % 10)] else [])
  ++ [digitChar (v.toNat % 10)]

/-- What `;` emits for `v` (43_io.md R113): the decimal text and one space. -/
def decimalText (v : Byte) : List Byte := decimal v ++ [0x20#8]

/-- Pop the right operand `b`, then the left operand `a` (41_arithmetic_logic.md R90). -/
def State.popTwo (s : State) : Except FaultKind (Byte × Byte × State) := do
  let (b, s1) ← s.pop
  let (a, s2) ← s1.pop
  return (a, b, s2)

end Sys2Proof.Machine
end

