-- ==== Sys2Proof/Machine/Arith.lean ====
section
/-! DEFINITION. The eight binary operators (41_arithmetic_logic.md). -/

namespace Sys2Proof.Machine

/-- `BINOP(op)` of R90: `b` is the old top, `a` the entry under it; `op` may raise `DIV_ZERO`. -/
def State.binop (s : State) (op : Byte → Byte → Except FaultKind Byte) : Except FaultKind State := do
  let (a, b, s2) ← s.popTwo
  let r ← op a b
  let t ← s2.push r
  return t.advance

/-- R94, R95: a zero right operand raises `DIV_ZERO`, whatever the left operand. -/
def guardZero (op : Byte → Byte → Byte) (a b : Byte) : Except FaultKind Byte :=
  if b = 0#8 then .error .divZero else .ok (op a b)

/-- `ADD` (R91). -/
def execAdd (s : State) : Host.Outcome State Fault Refusal := s.settle (s.binop fun a b => .ok (a + b))

/-- `SUB` (R92): the entry pushed earlier minus the top. -/
def execSub (s : State) : Host.Outcome State Fault Refusal := s.settle (s.binop fun a b => .ok (a - b))

/-- `MUL` (R93): the low 8 bits of the product. -/
def execMul (s : State) : Host.Outcome State Fault Refusal := s.settle (s.binop fun a b => .ok (a * b))

/-- `DIV` (R94): unsigned quotient; zero divisor faults (D5). -/
def execDiv (s : State) : Host.Outcome State Fault Refusal := s.settle (s.binop (guardZero fun a b => a.udiv b))

/-- `MOD` (R95): unsigned remainder; zero divisor faults (D5). -/
def execMod (s : State) : Host.Outcome State Fault Refusal := s.settle (s.binop (guardZero fun a b => a.umod b))

/-- `AND` (R96). -/
def execAnd (s : State) : Host.Outcome State Fault Refusal := s.settle (s.binop fun a b => .ok (a &&& b))

/-- `OR` (R97). -/
def execOr (s : State) : Host.Outcome State Fault Refusal := s.settle (s.binop fun a b => .ok (a ||| b))

/-- `XOR` (R98). -/
def execXor (s : State) : Host.Outcome State Fault Refusal := s.settle (s.binop fun a b => .ok (a ^^^ b))

end Sys2Proof.Machine
end

