-- ==== Sys2Proof/Machine/Io.lean ====
section
/-! DEFINITION. Input and output (43_io.md). -/

namespace Sys2Proof.Machine

/-- `OUTB` (R111). -/
def execOutb (s : State) : Host.Outcome State Fault Refusal :=
  s.settle do
    let (v, t) ← s.pop
    return (t.emit [v]).advance

/-- `INB` (R112): waits while there is no answer (R115); the answer is consumed before the push, so that an
`ALLOC` finds it gone (D20). -/
def execInb (s : State) : Host.Outcome State Fault Refusal :=
  match s.input with
  | [] => .fault .inputWait
  | r :: rest =>
    let s1 := s.dropAnswer rest
    s1.settle do
      let t ← s1.push (s.answerByte r)
      return t.advance

/-- `OUTD` (R113). -/
def execOutd (s : State) : Host.Outcome State Fault Refusal :=
  s.settle do
    let (v, t) ← s.pop
    return (t.emit (decimalText v)).advance

end Sys2Proof.Machine
end

