-- ==== Sys2Proof/Syntax.lean ====
section
/-! DEFINITION. The instructions: one constructor per mnemonic of spec/opcode_table.json (30_encoding.md R65),
with the immediates of R62 to R64. A literal carries what its forward scan found, because a literal that
the scan finds defective still is that instruction and faults when executed (R66, R68; log entry 15). -/

namespace Sys2Proof

/-- What the scan of a string literal finds after the opening quote (46_literals.md R140, R141). -/
inductive StrLit where
  /-- The bytes strictly between the quotes. -/
  | closed (body : List Byte)
  /-- `FindQuote` returned `NotFound`. -/
  | unclosed
  deriving DecidableEq, Repr

/-- What the scan of a numeric literal finds after the opening quote (46_literals.md R142). -/
inductive NumLit where
  /-- The digit characters between the quotes. -/
  | closed (digits : List Byte)
  /-- `BadChar`: the byte at this offset after the opening quote is neither digit nor quote. -/
  | badChar (offset : Nat)
  /-- `Unclosed`: the program ends first. -/
  | unclosed
  deriving DecidableEq, Repr

/-- One instruction (30_encoding.md R60, R65). -/
inductive Instr where
  /-- `0`..`9`; `d` is the immediate, the digit's numeric value (R62, R80). -/
  | pushd (d : Byte)
  /-- A letter; `c` is the immediate, the byte itself (R63, R81). -/
  | pushl (c : Byte)
  | add | sub | mul | div | mod | and | or | xor
  | drop | dup | swap | next | prev
  | outb | inb | outd
  | loopnz | endnz | loopne | endne
  | store | load
  | str (lit : StrLit)
  | num (lit : NumLit)
  /-- Any of the 170 other bytes, kept so that encoding gives it back (R82). -/
  | nop (c : Byte)
  deriving DecidableEq, Repr

end Sys2Proof
end

