-- ==== Sys2Proof/Machine/Literals.lean ====
section
/-! DEFINITION. String and numeric literals (46_literals.md). With the opening quote at `pc` and `n` bytes between the
quotes the closing quote is at `m = pc + 1 + n`, and `pc` goes to `m + 1`. -/

namespace Sys2Proof.Machine

/-- `STR` (R141): the structural check comes before the room check (60_exceptions.md R155). -/
def execStr (lit : StrLit) (s : State) : Host.Outcome State Fault Refusal :=
  match lit with
  | .unclosed => s.raise .unclosedString s.pc
  | .closed body =>
    s.settle do
      let t ← s.pushBody body
      return t.setPc (s.pc + 1 + body.length + 1)

/-- `NUM` (R143): exactly one value is pushed, whatever the digit count; a bad byte's position goes into `aux`. -/
def execNum (lit : NumLit) (s : State) : Host.Outcome State Fault Refusal :=
  match lit with
  | .unclosed => s.raise .unclosedNumeric s.pc
  | .badChar k => s.raise .numericBadChar (s.pc + 1 + k)
  | .closed digits =>
    s.settle do
      let t ← s.push (numValue digits)
      return t.setPc (s.pc + 1 + digits.length + 1)

end Sys2Proof.Machine
end

