-- ==== Sys2Proof/Machine/Flags.lean ====
section
/-! DEFINITION. This machine has no flags (10_state.md R30). In their place the two openers test the data stack directly:
`[` whether the top is zero, the curly opener whether the stack is empty. -/

namespace Sys2Proof.Machine

/-- The test of `[` (44_loops.md R122): the top of `S` is zero. It peeks, so an empty stack raises `STACK_EMPTY`. -/
def State.topIsZero (s : State) : Except FaultKind Bool := do
  let v ← s.peek
  return v == 0#8

/-- `Empty()`, the test of the curly opener (44_loops.md R125); it never faults (20_memory.md R42). -/
def State.isEmpty (s : State) : Bool := s.cur.isEmpty

end Sys2Proof.Machine
end

