-- ==== Sys2Proof/Machine/Scanner.lean ====
section
/-! DEFINITION. The bracket-matching scanner (44_loops.md R120) and the skip it serves (R121). -/

namespace Sys2Proof.Machine

/-- The loop of 44_loops.md R120 on the bytes from position `i` to the end of the program, at nesting depth `depth`:
the position of the closer that brings the depth to 0. -/
def scanBytes (opener closer : Byte) : Nat → Nat → List Byte → Option Nat
  | _, _, [] => none
  | depth, i, c :: rest =>
    if c = opener then scanBytes opener closer (depth + 1) (i + 1) rest
    else if c = closer then
      if depth - 1 = 0 then some i else scanBytes opener closer (depth - 1) (i + 1) rest
    else scanBytes opener closer depth (i + 1) rest

/-- `Scan(open, close, start)`: bound `PLEN`, depth 1 at the start (44_loops.md R120). -/
def State.scan (s : State) (opener closer : Byte) (start : Nat) : Option Nat :=
  scanBytes opener closer 1 start (s.progFrom start)

/-- The skip of a disabled body (44_loops.md R121): `pc` goes just past the lexically matching closer; no call stack
changes. -/
def State.skipBody (s : State) (opener closer : Byte) : Except FaultKind State :=
  match s.scan opener closer (s.pc + 1) with
  | some m => .ok (s.setPc (m + 1))
  | none => .error .unmatchedOpen

/-- The entry into a body (44_loops.md R121): the opener's own position goes on its call stack, control falls
through. -/
def State.enterBody (s : State) (c : CallStack) : Except FaultKind State := do
  let t ← s.cpush c s.pc
  return t.advance

/-- The closer's return (44_loops.md R121): to the position on top of its call stack. -/
def State.returnToOpener (s : State) (c : CallStack) : Except FaultKind State := do
  let (p, t) ← s.cpop c
  return t.setPc p

end Sys2Proof.Machine
end

