-- ==== Sys2Proof/Machine/Loops.lean ====
section
/-! DEFINITION. The four control transfers (44_loops.md). -/

namespace Sys2Proof.Machine

/-- `LOOPNZ` (R122): the tested value stays on the stack on both paths. -/
def execLoopnz (s : State) : Host.Outcome State Fault Refusal :=
  s.settle do
    if ← s.topIsZero then s.skipBody 0x5B#8 0x5D#8 else s.enterBody .square

/-- `ENDNZ` (R123). -/
def execEndnz (s : State) : Host.Outcome State Fault Refusal := s.settle (s.returnToOpener .square)

/-- `LOOPNE` (R125): an empty stack is its false case, not a fault. -/
def execLoopne (s : State) : Host.Outcome State Fault Refusal :=
  s.settle (if s.isEmpty then s.skipBody 0x7B#8 0x7D#8 else s.enterBody .curly)

/-- `ENDNE` (R126). -/
def execEndne (s : State) : Host.Outcome State Fault Refusal := s.settle (s.returnToOpener .curly)

end Sys2Proof.Machine
end

