-- ==== Sys2Proof/Machine/PushNop.lean ====
section
/-! DEFINITION. Digit push, letter push, no-op (40_push_and_nop.md). -/

namespace Sys2Proof.Machine

/-- Push an immediate and fall through: the shape of R80 and R81. -/
def State.pushImmediate (s : State) (v : Byte) : Except FaultKind State := do
  let t ← s.push v
  return t.advance

/-- `PUSHD` (R80). -/
def execPushd (d : Byte) (s : State) : Host.Outcome State Fault Refusal := s.settle (s.pushImmediate d)

/-- `PUSHL` (R81). -/
def execPushl (c : Byte) (s : State) : Host.Outcome State Fault Refusal := s.settle (s.pushImmediate c)

/-- `NOP` (R82). -/
def execNop (s : State) : Host.Outcome State Fault Refusal := .next s.advance

end Sys2Proof.Machine
end

