-- ==== Sys2Proof/Machine/Registers.lean ====
section
/-! DEFINITION. Register store and load (45_registers.md). -/

namespace Sys2Proof.Machine

/-- `STORE` (R135): the value is popped first, then the index. -/
def execStore (s : State) : Host.Outcome State Fault Refusal :=
  s.settle do
    let (i, v, t) ← s.popTwo
    return (t.writeReg i v).advance

/-- `LOAD` (R136). -/
def execLoad (s : State) : Host.Outcome State Fault Refusal :=
  s.settle do
    let (i, s1) ← s.pop
    let t ← s1.push (s1.readReg i)
    return t.advance

end Sys2Proof.Machine
end

