-- ==== Sys2Proof/Machine/StackOps.lean ====
section
/-! DEFINITION. Stack manipulation and stack selection (42_stack_manipulation.md). -/

namespace Sys2Proof.Machine

/-- `DROP` (R100). -/
def execDrop (s : State) : Host.Outcome State Fault Refusal :=
  s.settle do
    let (_, t) ← s.pop
    return t.advance

/-- `DUP` (R101). -/
def execDup (s : State) : Host.Outcome State Fault Refusal :=
  s.settle do
    let v ← s.peek
    let t ← s.push v
    return t.advance

/-- `SWAP` (R102): `b` is the old top, `a` the new one. -/
def execSwap (s : State) : Host.Outcome State Fault Refusal :=
  s.settle do
    let (a, b, s2) ← s.popTwo
    let s3 ← s2.push b
    let t ← s3.push a
    return t.advance

/-- `NEXT` (R103): `sel + 1` modulo 256. -/
def execNext (s : State) : Host.Outcome State Fault Refusal :=
  .next (State.advance { s with sel := s.sel + 1#8 })

/-- `PREV` (R104): `sel - 1` modulo 256. -/
def execPrev (s : State) : Host.Outcome State Fault Refusal :=
  .next (State.advance { s with sel := s.sel - 1#8 })

end Sys2Proof.Machine
end

