-- ==== Sys2Proof/Machine/Dispatch.lean ====
section
/-! DEFINITION. One arm per instruction (30_encoding.md R69). -/

namespace Sys2Proof.Machine

def exec (i : Instr) (s : State) : Host.Outcome State Fault Refusal :=
  match i with
  | .pushd d => Sys2Proof.Machine.execPushd d s
  | .pushl c => Sys2Proof.Machine.execPushl c s
  | .add => Sys2Proof.Machine.execAdd s
  | .sub => Sys2Proof.Machine.execSub s
  | .mul => Sys2Proof.Machine.execMul s
  | .div => Sys2Proof.Machine.execDiv s
  | .mod => Sys2Proof.Machine.execMod s
  | .and => Sys2Proof.Machine.execAnd s
  | .or => Sys2Proof.Machine.execOr s
  | .xor => Sys2Proof.Machine.execXor s
  | .drop => Sys2Proof.Machine.execDrop s
  | .dup => Sys2Proof.Machine.execDup s
  | .swap => Sys2Proof.Machine.execSwap s
  | .next => Sys2Proof.Machine.execNext s
  | .prev => Sys2Proof.Machine.execPrev s
  | .outb => Sys2Proof.Machine.execOutb s
  | .inb => Sys2Proof.Machine.execInb s
  | .outd => Sys2Proof.Machine.execOutd s
  | .loopnz => Sys2Proof.Machine.execLoopnz s
  | .endnz => Sys2Proof.Machine.execEndnz s
  | .loopne => Sys2Proof.Machine.execLoopne s
  | .endne => Sys2Proof.Machine.execEndne s
  | .store => Sys2Proof.Machine.execStore s
  | .load => Sys2Proof.Machine.execLoad s
  | .str lit => Sys2Proof.Machine.execStr lit s
  | .num lit => Sys2Proof.Machine.execNum lit s
  | .nop _ => Sys2Proof.Machine.execNop s

end Sys2Proof.Machine
end

