-- ==== Sys2Proof/Decode.lean ====
section
/-! DEFINITION. The decoder (30_encoding.md R61, R65, R68), total on any bytes, and the encoder (R60, R65). -/

namespace Sys2Proof

/-! ### The decoder -/

/-- Why no instruction is read. There is no illegal instruction (R66): only the end of the program. -/
inductive DecodeError where
  /-- There is no byte at the position: the position is at or beyond `PLEN` (20_memory.md R41). -/
  | endOfProgram
  deriving DecidableEq, Repr

/-- R61 step 1. -/
def isDigit (c : Byte) : Bool := decide (0x30#8 ≤ c) && decide (c ≤ 0x39#8)

/-- R61 step 2, R67. -/
def isLetter (c : Byte) : Bool :=
  (decide (0x41#8 ≤ c) && decide (c ≤ 0x5A#8)) || (decide (0x61#8 ≤ c) && decide (c ≤ 0x7A#8))

/-- R65: the 22 one-byte opcode characters. -/
def operatorTable : List (Byte × Instr) :=
  [(0x2B#8, .add), (0x2D#8, .sub), (0x2A#8, .mul), (0x2F#8, .div), (0x25#8, .mod), (0x26#8, .and), (0x7C#8, .or), (0x5E#8, .xor)]
  ++ [(0x5F#8, .drop), (0x23#8, .dup), (0x40#8, .swap), (0x3E#8, .next), (0x3C#8, .prev)]
  ++ [(0x2E#8, .outb), (0x2C#8, .inb), (0x3B#8, .outd)]
  ++ [(0x5B#8, .loopnz), (0x5D#8, .endnz), (0x7B#8, .loopne), (0x7D#8, .endne)]
  ++ [(0x3D#8, .store), (0x24#8, .load)]

/-- `FindQuote` (46_literals.md R140) on the bytes from `start` on: the offset of the first unescaped quote.
The escape byte takes the byte after it out of consideration, whatever it is. -/
def findQuote (esc : Option Byte) : List Byte → Option Nat
  | [] => none
  | [b] => if esc = some b then none else if b = 0x22#8 then some 0 else none
  | b :: c :: rest =>
    if esc = some b then (findQuote esc rest).map (· + 2)
    else if b = 0x22#8 then some 0
    else (findQuote esc (c :: rest)).map (· + 1)

/-- The result of the digit scan; offsets count from the byte after the opening quote. -/
inductive NumScan where
  | closed (offset : Nat)
  | badChar (offset : Nat)
  | unclosed
  deriving DecidableEq, Repr

/-- `ScanNumber` (46_literals.md R142) on the bytes from `start` on, the first of them at offset `i`: the first
byte that is neither a digit nor the quote decides, even when no quote follows. Its accumulator is `numValue`
of the digits it passes (Machine/Operands.lean). -/
def scanNumber : Nat → List Byte → NumScan
  | _, [] => .unclosed
  | i, c :: rest =>
    if c = 0x27#8 then .closed i
    else if isDigit c then scanNumber (i + 1) rest
    else .badChar i

/-- The string literal whose opening quote is followed by `tail` (R68, 46_literals.md R141). -/
def decodeStr (esc : Option Byte) (tail : List Byte) : StrLit :=
  match findQuote esc tail with
  | some m => .closed (tail.take m)
  | none => .unclosed

/-- The numeric literal whose opening quote is followed by `tail` (R68, 46_literals.md R143). -/
def decodeNum (tail : List Byte) : NumLit :=
  match scanNumber 0 tail with
  | .closed m => .closed (tail.take m)
  | .badChar i => .badChar i
  | .unclosed => .unclosed

/-- R61: the class of the first byte `c`, by the tests in the spec's order; `tail` are the bytes after it, read
by the two literals only. -/
def decodeByte (esc : Option Byte) (c : Byte) (tail : List Byte) : Instr :=
  if isDigit c then .pushd (c - 0x30#8)
  else if isLetter c then .pushl c
  else if c = 0x22#8 then .str (decodeStr esc tail)
  else if c = 0x27#8 then .num (decodeNum tail)
  else (operatorTable.lookup c).getD (.nop c)

/-- The instruction at the head of the bytes from `pc` to the end of the program. -/
def decode (esc : Option Byte) : List Byte → Except DecodeError Instr
  | [] => .error .endOfProgram
  | c :: tail => .ok (decodeByte esc c tail)

/-! ### The encoder -/

/-- The opcode byte of an instruction (R65), from the spec's table and not from the decoder's. -/
def Instr.opcode : Instr → Byte
  | .pushd d => 0x30#8 + d
  | .pushl c => c
  | .nop c => c
  | .str _ => 0x22#8
  | .dup => 0x23#8
  | .load => 0x24#8
  | .mod => 0x25#8
  | .and => 0x26#8
  | .num _ => 0x27#8
  | .mul => 0x2A#8
  | .add => 0x2B#8
  | .inb => 0x2C#8
  | .sub => 0x2D#8
  | .outb => 0x2E#8
  | .div => 0x2F#8
  | .outd => 0x3B#8
  | .prev => 0x3C#8
  | .store => 0x3D#8
  | .next => 0x3E#8
  | .swap => 0x40#8
  | .loopnz => 0x5B#8
  | .endnz => 0x5D#8
  | .xor => 0x5E#8
  | .drop => 0x5F#8
  | .loopne => 0x7B#8
  | .or => 0x7C#8
  | .endne => 0x7D#8

/-- The bytes after the opcode byte (R60): a literal's body and its closing quote. A defective literal has no
length (R68), so nothing follows its opening quote here. -/
def Instr.trailer : Instr → List Byte
  | .str (.closed body) => body ++ [0x22#8]
  | .num (.closed digits) => digits ++ [0x27#8]
  | .str .unclosed | .num (.badChar _) | .num .unclosed => []
  | .pushd _ | .pushl _ | .nop _ | .add | .sub | .mul | .div | .mod | .and | .or | .xor
  | .drop | .dup | .swap | .next | .prev | .outb | .inb | .outd
  | .loopnz | .endnz | .loopne | .endne | .store | .load => []

/-- The bytes of an instruction (R60). -/
def Instr.encode (i : Instr) : List Byte := i.opcode :: i.trailer

/-- R68: the length of an instruction; a defective literal "faults and has no length". -/
def Instr.length : Instr → Option Nat
  | .str (.closed body) => some (body.length + 2)
  | .num (.closed digits) => some (digits.length + 2)
  | .str .unclosed | .num (.badChar _) | .num .unclosed => none
  | .pushd _ | .pushl _ | .nop _ | .add | .sub | .mul | .div | .mod | .and | .or | .xor
  | .drop | .dup | .swap | .next | .prev | .outb | .inb | .outd
  | .loopnz | .endnz | .loopne | .endne | .store | .load => some 1

/-- R65: the mnemonic of an instruction. -/
def Instr.mnemonic : Instr → String
  | .pushd _ => "PUSHD"
  | .pushl _ => "PUSHL"
  | .add => "ADD"
  | .sub => "SUB"
  | .mul => "MUL"
  | .div => "DIV"
  | .mod => "MOD"
  | .and => "AND"
  | .or => "OR"
  | .xor => "XOR"
  | .drop => "DROP"
  | .dup => "DUP"
  | .swap => "SWAP"
  | .next => "NEXT"
  | .prev => "PREV"
  | .outb => "OUTB"
  | .inb => "INB"
  | .outd => "OUTD"
  | .loopnz => "LOOPNZ"
  | .endnz => "ENDNZ"
  | .loopne => "LOOPNE"
  | .endne => "ENDNE"
  | .store => "STORE"
  | .load => "LOAD"
  | .str _ => "STR"
  | .num _ => "NUM"
  | .nop _ => "NOP"

/-! ### The opcode table's numbering of bits -/

/-- The bytes of a table word: the first byte is bits 7..0, the second bits 15..8, and so on. An instruction
of the table is at least one byte; a longer run of zero bytes would close no literal, so none is added
(log entry 13). -/
def tableBytes (nbits w : Nat) : List Byte :=
  (List.range (max 1 ((nbits + 7) / 8))).map fun k => BitVec.ofNat 8 (w / 2 ^ (8 * k))

/-- The instruction the decoder reads from a table word, under the default escape byte (00_scope.md R7). -/
def decodeTableWord (nbits w : Nat) : Option Instr :=
  match decode Config.standard.strEsc (tableBytes nbits w) with
  | .ok i => some i
  | .error _ => none

end Sys2Proof
end

