-- ==== Sys2Proof/Machine/Fetch.lean ====
section
/-! DEFINITION. What a step does around an instruction (30_encoding.md R69): whether one runs, the halt
(70_reset_and_hazards.md R172), the fetch; and placing an instruction where the next step fetches it. -/

namespace Sys2Proof.Machine

namespace State

/-- The halt: `run <- HALT_OK`, nothing else (70_reset_and_hazards.md R172; log entry 11). -/
def halt (s : State) : State := { s with run := .haltOk }

/-- The outcome of a step that runs no instruction, if it is one: a stopped machine, a program too long for `pc`, the
halt at `pc = PLEN`. -/
def beforeFetch (s : State) : Option (Host.Outcome State Fault Refusal) :=
  if s.run ≠ .running then some (.fault (.stopped s.run))
  else if s.cfg.fits s.plen = false then some (.refused .programTooLong)
  else if s.pc = s.plen then some (.next s.halt)
  else none

/-- The instruction at `pc`, read from the program bytes from `pc` on (30_encoding.md R60). -/
def fetchInstr (s : State) : Except DecodeError Instr := decode s.cfg.strEsc (s.progFrom s.pc)

/-- The program counter lies beyond the program, which no run reaches (10_state.md R25). -/
def fetchFailed (e : DecodeError) : Host.Outcome State Fault Refusal :=
  match e with
  | .endOfProgram => .fault .noSuchPosition

/-- `s` with the program cut at `pc` and the given bytes stored there, so that they are what the next step fetches and
the program ends after them; the machine runs, and the width of `pc` is left open if the program would not fit it.
Nothing else changes (log entry 13). -/
def placeAtPc (s : State) (bs : List Byte) : State :=
  let n := s.pc + bs.length
  { s with
    prog := Memory.writeBytes (s.prog.filter fun c => c.1 < s.pc) s.pc bs
    plen := n
    run := .running
    fault := none
    cfg := if s.cfg.fits n then s.cfg else { s.cfg with pcw := none } }

end State

end Sys2Proof.Machine
end

