-- ==== Sys2Proof/Machine/Step.lean ====
section
/-! DEFINITION. The step (30_encoding.md R69): one whole instruction (00_scope.md R9), or the halt. -/

namespace Sys2Proof.Machine

/-- One step. -/
def step (s : State) : Host.Outcome State Fault Refusal :=
  match s.beforeFetch with
  | some o => o
  | none =>
    match s.fetchInstr with
    | .ok i => exec i s
    | .error e => State.fetchFailed e

/-- `s` with a table word stored where `step` fetches its next instruction (log entries 10, 13). -/
def State.withFetchWord (s : State) (nbits w : Nat) : State := s.placeAtPc (tableBytes nbits w)

end Sys2Proof.Machine
end

