-- ==== Sys2Proof/Safety.lean ====
section
/-! DEFINITION. What a legal state is, in the terms the statements use: the invariants of 10_state.md (R24, R25, R28,
R33) and of the program space (20_memory.md R48), and what no step may write (R26, R27). -/

namespace Sys2Proof.Machine.State

/-- R33: no stack is above its capacity. -/
def CapacityHeld (s : State) : Prop :=
  (∀ k : Fin 256, s.cfg.dcap.holds s.stk[k].length = true) ∧ s.cfg.ccap.holds s.sq.length = true
    ∧ s.cfg.ccap.holds s.cu.length = true

/-- R24: every entry of `sq` is the position of a `[`, every entry of `cu` that of a curly opener. -/
def CallsPointAtOpeners (s : State) : Prop :=
  (∀ p ∈ s.sq, s.memRead p = some 0x5B#8) ∧ ∀ p ∈ s.cu, s.memRead p = some 0x7B#8

/-- R26, 20_memory.md R48: the program is in canonical form and lies below `PLEN`; 00_scope.md R7: the parameters are
legal and the program fits `PCW`. -/
def ProgramLoaded (s : State) : Prop :=
  s.prog.wf ∧ (∀ c ∈ s.prog, c.1 < s.plen) ∧ s.cfg.wf = true ∧ s.cfg.fits s.plen = true

/-- 60_exceptions.md R153: the record of a fault raised by the instruction at `pc`. -/
def RecordsFault (s : State) (r : FaultRecord) : Prop :=
  r.pos = s.pc ∧ s.memRead s.pc = some r.ch
    ∧ if r.kind = .numericBadChar then
        s.pc < r.aux ∧ ∃ b, s.memRead r.aux = some b ∧ isDigit b = false ∧ b ≠ 0x27#8
      else r.aux = r.pos

/-- R28: the record is absent while `run` is `RUNNING` or `HALT_OK`, and agrees with `run` otherwise; `HALT_OK` is
reached at `PLEN` only. -/
def StatusConsistent (s : State) : Prop :=
  match s.run with
  | .running => s.fault = none
  | .haltOk => s.fault = none ∧ s.pc = s.plen
  | .faultErr => ∃ r, s.fault = some r ∧ r.kind ≠ .alloc ∧ s.RecordsFault r
  | .faultAlloc => ∃ r, s.fault = some r ∧ r.kind = .alloc ∧ s.RecordsFault r

/-- The legal states: every step keeps this, from any state that has it. -/
structure Inv (s : State) : Prop where
  loaded : s.ProgramLoaded
  capacity : s.CapacityHeld
  calls : s.CallsPointAtOpeners
  pcInRange : s.pc ≤ s.plen
  status : s.StatusConsistent

/-- What is fixed for a whole run (R26, R27, 00_scope.md R7). -/
def SameRun (s t : State) : Prop :=
  t.prog = s.prog ∧ t.plen = s.plen ∧ t.eofval = s.eofval ∧ t.cfg = s.cfg

/-- The state of the core (R20) less the run status and the record: what a fault leaves unchanged (60_exceptions.md
R152), the output stream with it. -/
def SameData (s t : State) : Prop :=
  t.reg = s.reg ∧ t.stk = s.stk ∧ t.sel = s.sel ∧ t.sq = s.sq ∧ t.cu = s.cu ∧ t.pc = s.pc ∧ t.out = s.out

/-! ### Next states, written out

What the statements say an instruction answers, as plain record updates that name every field written. -/

/-- `S` becomes `l`, `pc` becomes `p`; nothing else changes. -/
def afterStack (s : State) (l : List Byte) (p : Nat) : State :=
  { s with stk := s.stk.set s.sel.toNat l s.sel.isLt, pc := p }

/-- A fault is taken (60_exceptions.md R152, R153): `run` and the record; nothing else changes. -/
def afterFault (s : State) (kind : FaultKind) (ch : Byte) (aux : Nat) : State :=
  { s with
    run := if kind = .alloc then .faultAlloc else .faultErr
    fault := some { kind := kind, pos := s.pc, ch := ch, aux := aux } }

end Sys2Proof.Machine.State

namespace Sys2Proof.Machine

/-- The outcome with `f` applied to its next state, if there is one. -/
def mapNext (f : State → State) : Host.Outcome State Fault Refusal → Host.Outcome State Fault Refusal
  | .next t => .next (f t)
  | .fault r => .fault r
  | .refused r => .refused r

end Sys2Proof.Machine
end

