-- ==== Sys2Proof/WellFormed.lean ====
section
/-! DEFINITION. Which terms of Instr are instructions a program can hold: the ranges of 30_encoding.md R60, R62,
R63, R65, R67 and, for literals, the format of R60. A defective literal has no length and no encoding (R68). -/

namespace Sys2Proof

/-- R61 step 1: `0x30 <= c <= 0x39`. -/
def wfDigitChar (c : Byte) : Bool := decide (0x30 ≤ c.toNat ∧ c.toNat ≤ 0x39)

/-- R67: exactly the 52 ASCII letters. -/
def wfLetterChar (c : Byte) : Bool :=
  decide (0x41 ≤ c.toNat ∧ c.toNat ≤ 0x5A) || decide (0x61 ≤ c.toNat ∧ c.toNat ≤ 0x7A)

/-- R82: the 170 filler values. -/
def wfFillerChar (c : Byte) : Bool :=
  decide (c.toNat ≤ 0x21) || c == 0x28#8 || c == 0x29#8 || c == 0x3A#8 || c == 0x3F#8 || c == 0x5C#8 ||
    c == 0x60#8
    || decide (0x7E ≤ c.toNat)

/-- R60, format STR: a quote occurs in the body only as the second byte of an escape pair, and no escape
byte is left over at the end (it would take the closing quote). -/
def wfStrBody (esc : Option Byte) : List Byte → Bool
  | [] => true
  | [b] => esc != some b && b != 0x22#8
  | b :: c :: rest =>
    if esc = some b then wfStrBody esc rest else b != 0x22#8 && wfStrBody esc (c :: rest)

/-- The well-formed instructions under the escape byte `esc` (`STR_ESC`). When the escape byte is the quote
itself no string can close (46_literals.md R140 tests the escape first). -/
def Instr.wf (esc : Option Byte) : Instr → Bool
  | .pushd d => decide (d.toNat ≤ 9)
  | .pushl c => wfLetterChar c
  | .nop c => wfFillerChar c
  | .str (.closed body) => esc != some 0x22#8 && wfStrBody esc body
  | .str .unclosed => false
  | .num (.closed digits) => digits.all wfDigitChar
  | .num (.badChar _) => false
  | .num .unclosed => false
  | .add | .sub | .mul | .div | .mod | .and | .or | .xor
  | .drop | .dup | .swap | .next | .prev | .outb | .inb | .outd
  | .loopnz | .endnz | .loopne | .endne | .store | .load => true

end Sys2Proof
end

