-- ==== Sys2Proof/Certificates/Slice0/Obligations.lean ====
section
/-! DEFINITION. What is claimed of the machine, stated and not proved. A statement that a reader can hold beside a rule of
spec/ names the rule. `afterStack` and `afterFault` (Safety.lean) are plain record updates, so an equation with one of them
says the result and that nothing else changes. Where a statement needs that `S` is within its capacity, that is
10_state.md R33, which the invariant `State.Inv` holds (StepKeepsTheInvariant). -/

open Sys2Proof Sys2Proof.Machine

/-! ### Encoding -/

/-- Decoding the bytes of a well-formed instruction gives it back, whatever bytes follow (30_encoding.md R60 to R68). -/
def Obligations.DecodeOfEncodeGivesTheInstruction : Prop :=
  ∀ (esc : Option Byte) (i : Instr) (rest : List Byte), i.wf esc = true → decode esc (i.encode ++ rest) = .ok i

/-- An instruction that was decoded and has a length is well-formed, and the bytes it was read from begin with its
encoding: no bit of them is dropped (30_encoding.md R60, R68; 46_literals.md R140, R142). -/
def Obligations.DecodedBytesAreTheEncoding : Prop :=
  ∀ (esc : Option Byte) (bytes : List Byte) (i : Instr) (n : Nat), decode esc bytes = .ok i → i.length = some n →
    i.wf esc = true ∧ n ≤ bytes.length ∧ bytes = i.encode ++ bytes.drop n

/-- The 24 opcode characters of 30_encoding.md R65. -/
def opcodeRows : List (Byte × String) :=
  [(0x22, "STR"), (0x23, "DUP"), (0x24, "LOAD"), (0x25, "MOD"), (0x26, "AND"), (0x27, "NUM"), (0x2A, "MUL"), (0x2B, "ADD")]
  ++ [(0x2C, "INB"), (0x2D, "SUB"), (0x2E, "OUTB"), (0x2F, "DIV"), (0x3B, "OUTD"), (0x3C, "PREV"), (0x3D, "STORE")]
  ++ [(0x3E, "NEXT"), (0x40, "SWAP"), (0x5B, "LOOPNZ"), (0x5D, "ENDNZ"), (0x5E, "XOR"), (0x5F, "DROP"), (0x7B, "LOOPNE")]
  ++ [(0x7C, "OR"), (0x7D, "ENDNE")]

/-- The byte alone selects the instruction, whatever follows it (30_encoding.md R60, R61). -/
def decodesAs (c : Byte) (i : Instr) : Prop := ∀ (esc : Option Byte) (tail : List Byte), decode esc (c :: tail) = .ok i

/-- Every byte value decodes, by its class: digits, letters, the 24 opcode characters, and every other byte as the
no-op; what follows the byte does not change its class, and without a quote its length is 1 (30_encoding.md R61, R65, R66,
R68). That the letters are the ASCII ones only and that a byte above `0x7F` is a no-op is the spec's own decision (R67,
D6). -/
def Obligations.EveryByteDecodesToItsRow : Prop :=
  ∀ (esc : Option Byte) (c : Byte) (tail : List Byte), ∃ i, decode esc (c :: tail) = .ok i ∧ i.opcode = c ∧
    (c ≠ 0x22 → c ≠ 0x27 → i.length = some 1) ∧
    (0x30 ≤ c.toNat ∧ c.toNat ≤ 0x39 → i = .pushd (c - 0x30)) ∧
    ((0x41 ≤ c.toNat ∧ c.toNat ≤ 0x5A) ∨ (0x61 ≤ c.toNat ∧ c.toNat ≤ 0x7A) → i = .pushl c) ∧
    (∀ row ∈ opcodeRows, row.1 = c → i.mnemonic = row.2) ∧
    (¬(0x30 ≤ c.toNat ∧ c.toNat ≤ 0x39) → ¬(0x41 ≤ c.toNat ∧ c.toNat ≤ 0x5A) → ¬(0x61 ≤ c.toNat ∧ c.toNat ≤ 0x7A) →
      (∀ row ∈ opcodeRows, row.1 ≠ c) → i = .nop c)

/-- A few words written out from the spec's encodings (30_encoding.md R60, R65; 95_test_vectors.md V11, V19, V20). -/
def Obligations.SpecWordsDecode : Prop :=
  decode (some 0x5C) [0x2B] = .ok .add ∧ decode (some 0x5C) [0x37] = .ok (.pushd 7) ∧
  decode (some 0x5C) [0x7A] = .ok (.pushl 0x7A) ∧ decode (some 0x5C) [0x0A] = .ok (.nop 0x0A) ∧
  decode (some 0x5C) [0x5B] = .ok .loopnz ∧ decode (some 0x5C) [0x7D] = .ok .endne ∧
  decode (some 0x5C) [0x22, 0x61, 0x5C, 0x22, 0x62, 0x22] = .ok (.str (.closed [0x61, 0x5C, 0x22, 0x62])) ∧
  decode none [0x22, 0x61, 0x5C, 0x22, 0x62, 0x22] = .ok (.str (.closed [0x61, 0x5C])) ∧
  decode (some 0x5C) [0x22, 0x61, 0x5C, 0x22] = .ok (.str .unclosed) ∧
  decode (some 0x5C) [0x27, 0x31, 0x32, 0x33, 0x27] = .ok (.num (.closed [0x31, 0x32, 0x33])) ∧
  decode (some 0x5C) [0x27, 0x31, 0x32, 0x61, 0x27] = .ok (.num (.badChar 2)) ∧
  decode (some 0x5C) [0x27, 0x31, 0x32] = .ok (.num .unclosed)

/-- Where a numeric literal's scan ends (46_literals.md R142): at the first byte that is not a digit, closed if that byte
is the quote and a bad character otherwise, or at the end of the program. That the first event in scan order decides
is the spec's own decision (D16). -/
def Obligations.NumericScanEndsAtFirstNonDigit : Prop :=
  ∀ (esc : Option Byte) (ds tail : List Byte), (∀ d ∈ ds, 0x30 ≤ d.toNat ∧ d.toNat ≤ 0x39) →
    (tail = [] → decode esc (0x27 :: (ds ++ tail)) = .ok (.num .unclosed)) ∧
    (∀ c rest, tail = c :: rest → c = 0x27 → decode esc (0x27 :: (ds ++ tail)) = .ok (.num (.closed ds))) ∧
    (∀ c rest, tail = c :: rest → c ≠ 0x27 → ¬(0x30 ≤ c.toNat ∧ c.toNat ≤ 0x39) →
      decode esc (0x27 :: (ds ++ tail)) = .ok (.num (.badChar ds.length)))

/-- A string literal closes at the first quote that no escape byte takes out of consideration, and is unclosed exactly when
there is none (46_literals.md R140): its body is the shortest one that is well-formed and followed by a quote. What
escapes a quote is the spec's own decision (D7). -/
def Obligations.StringClosesAtFirstUnescapedQuote : Prop :=
  ∀ (esc : Option Byte) (tail : List Byte),
    (∀ body, decode esc (0x22 :: tail) = .ok (.str (.closed body)) ↔
      esc ≠ some 0x22 ∧ wfStrBody esc body = true ∧ ∃ rest, tail = body ++ 0x22 :: rest) ∧
    (decode esc (0x22 :: tail) = .ok (.str .unclosed) ↔
      ¬∃ body rest, esc ≠ some 0x22 ∧ wfStrBody esc body = true ∧ tail = body ++ 0x22 :: rest)

/-! ### The step -/

/-- When the bytes from `pc` on decode to `i`, a step is `i`'s effect and nothing is added around it; those bytes are the
program's, position by position (30_encoding.md R69, 20_memory.md R41). -/
def Obligations.StepRunsTheDecodedInstruction : Prop :=
  ∀ (s : State) (i : Instr), s.run = .running → s.cfg.fits s.plen = true → s.pc < s.plen →
    decode s.cfg.strEsc (s.progFrom s.pc) = .ok i →
    step s = exec i s ∧ ∀ k, (s.progFrom s.pc)[k]? = s.memRead (s.pc + k)

/-- Inside the program a step always runs an instruction: the one its first byte selects (30_encoding.md R66, R69). -/
def Obligations.EveryPositionRunsAnInstruction : Prop :=
  ∀ s : State, s.run = .running → s.cfg.fits s.plen = true → s.pc < s.plen →
    ∃ i, step s = exec i s ∧ s.memRead s.pc = some i.opcode

/-- A step that begins with `pc = PLEN` sets `HALT_OK` and changes nothing else, whatever the stacks hold
(70_reset_and_hazards.md R172; the spec's own decision D15), and there is no further step. -/
def Obligations.StepAtTheEndHalts : Prop :=
  ∀ s : State, s.run = .running → s.cfg.fits s.plen = true → s.pc = s.plen →
    step s = .next { s with run := .haltOk } ∧ ∀ u, step { s with run := .haltOk } ≠ .next u

/-- No step leaves a terminal status (10_state.md R28). That the model answers `Fault.stopped` is its own name for "there is
no step" (log entry 5). -/
def Obligations.StoppedMachineTakesNoStep : Prop :=
  ∀ s : State, s.run ≠ .running → step s = .fault (.stopped s.run)

/-- A program longer than `2^PCW - 1` is refused (93_implementation_defined.md U6). -/
def Obligations.OverlongProgramIsRefused : Prop :=
  ∀ (s : State) (w : Nat), s.run = .running → s.cfg.pcw = some w → 2 ^ w ≤ s.plen → step s = .refused .programTooLong

/-- The model's own placement of a table word (log entry 13): the next step runs exactly the instruction the decoder
reads from the word, and the core's data are as before. -/
def Obligations.PlacedTableWordRunsNext : Prop :=
  ∀ (s : State) (nbits w : Nat) (i : Instr), decodeTableWord nbits w = some i →
    s.cfg.strEsc = Config.standard.strEsc →
    step (s.withFetchWord nbits w) = exec i (s.withFetchWord nbits w) ∧ s.SameData (s.withFetchWord nbits w)

/-! ### Pushes and the no-op -/

/-- A digit pushes its value, a letter itself; on a full stack they fault with `ALLOC` (40_push_and_nop.md R80, R81). -/
def Obligations.DigitAndLetterPushTheirImmediate : Prop :=
  (∀ c : Byte, 0x30 ≤ c.toNat → c.toNat ≤ 0x39 → decodesAs c (.pushd (c - 0x30))) ∧
  (∀ c : Byte, (0x41 ≤ c.toNat ∧ c.toNat ≤ 0x5A) ∨ (0x61 ≤ c.toNat ∧ c.toNat ≤ 0x7A) → decodesAs c (.pushl c)) ∧
  ∀ (s : State) (v : Byte),
    (s.cfg.dcap ≠ some s.cur.length →
      exec (.pushd v) s = .next (s.afterStack (s.cur ++ [v]) (s.pc + 1)) ∧
      exec (.pushl v) s = .next (s.afterStack (s.cur ++ [v]) (s.pc + 1))) ∧
    (∀ ch, s.cfg.dcap = some s.cur.length → s.memRead s.pc = some ch →
      exec (.pushd v) s = .next (s.afterFault .alloc ch s.pc) ∧ exec (.pushl v) s = .next (s.afterFault .alloc ch s.pc))

/-- A step at a filler byte changes `pc` only and never faults (40_push_and_nop.md R82). -/
def Obligations.FillerByteOnlyAdvances : Prop :=
  ∀ (s : State) (c : Byte), exec (.nop c) s = .next { s with pc := s.pc + 1 } ∧
    (s.run = .running → s.cfg.fits s.plen = true → s.memRead s.pc = some c → wfFillerChar c = true →
      step s = .next { s with pc := s.pc + 1 })

/-! ### Arithmetic and logic -/

/-- The operators that cannot fault on two entries, each with its byte, over the unsigned values of
41_arithmetic_logic.md R91 to R98. -/
def totalOperators : List (Byte × Instr × (Nat → Nat → Nat)) :=
  [(0x2B, .add, fun a b => (a + b) % 256), (0x2D, .sub, fun a b => (a + 256 - b) % 256),
    (0x2A, .mul, fun a b => a * b % 256), (0x26, .and, fun a b => a &&& b), (0x7C, .or, fun a b => a ||| b),
    (0x5E, .xor, fun a b => a ^^^ b)]

/-- ADD, SUB, MUL, AND, OR and XOR replace `a, b` (b on top) by `a op b` modulo 256; with fewer than two entries they fault
and take nothing (41_arithmetic_logic.md R90 to R93, R96 to R98). -/
def Obligations.BinaryOperatorsReplaceTwoByResult : Prop :=
  ∀ row ∈ totalOperators, decodesAs row.1 row.2.1 ∧ ∀ s : State,
    (∀ l a b, s.cur = l ++ [a, b] → s.cfg.dcap.holds s.cur.length = true →
      exec row.2.1 s = .next (s.afterStack (l ++ [BitVec.ofNat 8 (row.2.2 a.toNat b.toNat)]) (s.pc + 1))) ∧
    (∀ ch, s.cur.length < 2 → s.memRead s.pc = some ch → exec row.2.1 s = .next (s.afterFault .stackEmpty ch s.pc))

/-- DIV and MOD are the unsigned quotient and remainder; a zero divisor faults with both operands left; the pops are
checked first (41_arithmetic_logic.md R94, R95; 60_exceptions.md R155). The fault on a zero divisor is the spec's own
decision (D5), and so is rounding toward zero (D25). -/
def Obligations.DivisionIsUnsignedAndZeroFaults : Prop :=
  decodesAs 0x2F .div ∧ decodesAs 0x25 .mod ∧ ∀ s : State,
    (∀ l a b, s.cur = l ++ [a, b] → s.cfg.dcap.holds s.cur.length = true → b ≠ 0 →
      exec .div s = .next (s.afterStack (l ++ [BitVec.ofNat 8 (a.toNat / b.toNat)]) (s.pc + 1)) ∧
      exec .mod s = .next (s.afterStack (l ++ [BitVec.ofNat 8 (a.toNat % b.toNat)]) (s.pc + 1))) ∧
    (∀ l a ch, s.cur = l ++ [a, 0] → s.memRead s.pc = some ch →
      exec .div s = .next (s.afterFault .divZero ch s.pc) ∧ exec .mod s = .next (s.afterFault .divZero ch s.pc)) ∧
    (∀ ch, s.cur.length < 2 → s.memRead s.pc = some ch →
      exec .div s = .next (s.afterFault .stackEmpty ch s.pc) ∧ exec .mod s = .next (s.afterFault .stackEmpty ch s.pc))

/-! ### Stack manipulation -/

/-- `DROP` (42_stack_manipulation.md R100). -/
def Obligations.DropRemovesTheTop : Prop :=
  decodesAs 0x5F .drop ∧ ∀ s : State,
    (∀ l v, s.cur = l ++ [v] → exec .drop s = .next (s.afterStack l (s.pc + 1))) ∧
    (∀ ch, s.cur = [] → s.memRead s.pc = some ch → exec .drop s = .next (s.afterFault .stackEmpty ch s.pc))

/-- `DUP` (42_stack_manipulation.md R101), its two faults in order. -/
def Obligations.DupCopiesTheTop : Prop :=
  decodesAs 0x23 .dup ∧ ∀ s : State,
    (∀ l v, s.cur = l ++ [v] → s.cfg.dcap ≠ some s.cur.length →
      exec .dup s = .next (s.afterStack (l ++ [v, v]) (s.pc + 1))) ∧
    (∀ ch, s.cur = [] → s.memRead s.pc = some ch → exec .dup s = .next (s.afterFault .stackEmpty ch s.pc)) ∧
    (∀ ch, s.cur ≠ [] → s.cfg.dcap = some s.cur.length → s.memRead s.pc = some ch →
      exec .dup s = .next (s.afterFault .alloc ch s.pc))

/-- `SWAP` (42_stack_manipulation.md R102). -/
def Obligations.SwapExchangesTheTopTwo : Prop :=
  decodesAs 0x40 .swap ∧ ∀ s : State,
    (∀ l a b, s.cur = l ++ [a, b] → s.cfg.dcap.holds s.cur.length = true →
      exec .swap s = .next (s.afterStack (l ++ [b, a]) (s.pc + 1))) ∧
    (∀ ch, s.cur.length < 2 → s.memRead s.pc = some ch → exec .swap s = .next (s.afterFault .stackEmpty ch s.pc))

/-- "`# _` leaves the stack exactly as before the `#`", and `@ @` restores the order (42_stack_manipulation.md R101, R102):
two instructions later only `pc` differs. -/
def Obligations.DupDropAndSwapSwapRestore : Prop :=
  ∀ s : State,
    (s.cur ≠ [] → s.cfg.dcap ≠ some s.cur.length →
      ∃ t, exec .dup s = .next t ∧ exec .drop t = .next { s with pc := s.pc + 2 }) ∧
    (2 ≤ s.cur.length → s.cfg.dcap.holds s.cur.length = true →
      ∃ t, exec .swap s = .next t ∧ exec .swap t = .next { s with pc := s.pc + 2 })

/-- `NEXT` and `PREV` move the selector by one modulo 256, never fault, and undo each other
(42_stack_manipulation.md R103, R104). -/
def Obligations.SelectorMovesModulo256 : Prop :=
  decodesAs 0x3E .next ∧ decodesAs 0x3C .prev ∧ ∀ s : State,
    (∃ t, exec .next s = .next t ∧ t = { s with sel := t.sel, pc := s.pc + 1 } ∧ t.sel.toNat = (s.sel.toNat + 1) % 256 ∧
      exec .prev t = .next { s with pc := s.pc + 2 }) ∧
    (∃ t, exec .prev s = .next t ∧ t = { s with sel := t.sel, pc := s.pc + 1 } ∧ t.sel.toNat = (s.sel.toNat + 255) % 256 ∧
      exec .next t = .next { s with pc := s.pc + 2 })

/-! ### Input and output -/

/-- `OUTB` (43_io.md R110, R111). -/
def Obligations.OutbEmitsTheTop : Prop :=
  decodesAs 0x2E .outb ∧ ∀ s : State,
    (∀ l v, s.cur = l ++ [v] → exec .outb s = .next { s.afterStack l (s.pc + 1) with out := s.out ++ [v] }) ∧
    (∀ ch, s.cur = [] → s.memRead s.pc = some ch → exec .outb s = .next (s.afterFault .stackEmpty ch s.pc))

/-- `OUTD` emits the decimal digits of the unsigned value, as the standard library writes them, and one space
(43_io.md R113, R114). The form of the digits is the spec's own decision (D17). -/
def Obligations.OutdEmitsDecimalAndSpace : Prop :=
  decodesAs 0x3B .outd ∧ ∀ s : State,
    (∀ l v, s.cur = l ++ [v] →
      exec .outd s = .next { s.afterStack l (s.pc + 1) with
        out := s.out ++ (Nat.toDigits 10 v.toNat).map (fun c => BitVec.ofNat 8 c.toNat) ++ [0x20] }) ∧
    (∀ ch, s.cur = [] → s.memRead s.pc = some ch → exec .outd s = .next (s.afterFault .stackEmpty ch s.pc))

/-- `INB` consumes one answer and pushes its byte, or `EOFVAL` for end-of-input; with a full stack the answer is consumed
and lost, then `ALLOC` (43_io.md R112; that the answer is lost is the spec's own decision, D20). -/
def Obligations.InbPushesTheAnswer : Prop :=
  decodesAs 0x2C .inb ∧ ∀ (s : State) (rest : List InputAnswer),
    (∀ b, s.input = .byte b :: rest → s.cfg.dcap ≠ some s.cur.length →
      exec .inb s = .next { s.afterStack (s.cur ++ [b]) (s.pc + 1) with input := rest }) ∧
    (s.input = .eof :: rest → s.cfg.dcap ≠ some s.cur.length →
      exec .inb s = .next { s.afterStack (s.cur ++ [s.eofval]) (s.pc + 1) with input := rest }) ∧
    (∀ r ch, s.input = r :: rest → s.cfg.dcap = some s.cur.length → s.memRead s.pc = some ch →
      exec .inb s = .next { s.afterFault .alloc ch s.pc with input := rest })

/-- With no answer `INB` has no step, however the rest of the state stands; as soon as the environment answers it runs, and
takes just that answer (43_io.md R115). That the model answers `Fault.inputWait` is its own name for the wait (log entry
6). -/
def Obligations.InbWaitsForAnAnswer : Prop :=
  ∀ (s : State) (r : InputAnswer), s.input = [] → exec .inb s = .fault .inputWait ∧
    (s.cfg.dcap ≠ some s.cur.length → ∃ t, exec .inb (s.answer r) = .next t ∧ t.input = [] ∧ t.pc = s.pc + 1)

/-! ### Loops -/

/-- The scanner finds the closer at which, for the first time, the closers from `start` on outnumber the openers: the
position `start + k` of a closer such that up to it they do by one, and before it nowhere (44_loops.md R120).
The bound `PLEN` and the blindness to literals are the spec's own decision (D18). -/
def Obligations.ScanFindsTheBalancingCloser : Prop :=
  ∀ (s : State) (o c : Byte) (start m : Nat), o ≠ c →
    (s.scan o c start = some m ↔
      ∃ k, m = start + k ∧ s.memRead m = some c ∧
        ((s.progFrom start).take (k + 1)).count c = ((s.progFrom start).take (k + 1)).count o + 1 ∧
        ∀ j ≤ k, ((s.progFrom start).take j).count c ≤ ((s.progFrom start).take j).count o)

/-- `LOOPNZ`: enter on a nonzero top, skip on a zero one, the tested value kept; its three faults
(44_loops.md R122). -/
def Obligations.LoopnzEntersOrSkips : Prop :=
  decodesAs 0x5B .loopnz ∧ ∀ s : State,
    (∀ l v, s.cur = l ++ [v] → v ≠ 0 → s.cfg.ccap ≠ some s.sq.length →
      exec .loopnz s = .next { s with sq := s.sq ++ [s.pc], pc := s.pc + 1 }) ∧
    (∀ l m, s.cur = l ++ [0] → s.scan 0x5B 0x5D (s.pc + 1) = some m → exec .loopnz s = .next { s with pc := m + 1 }) ∧
    (∀ ch, s.cur = [] → s.memRead s.pc = some ch → exec .loopnz s = .next (s.afterFault .stackEmpty ch s.pc)) ∧
    (∀ l ch, s.cur = l ++ [0] → s.scan 0x5B 0x5D (s.pc + 1) = none → s.memRead s.pc = some ch →
      exec .loopnz s = .next (s.afterFault .unmatchedOpen ch s.pc)) ∧
    (∀ l v ch, s.cur = l ++ [v] → v ≠ 0 → s.cfg.ccap = some s.sq.length → s.memRead s.pc = some ch →
      exec .loopnz s = .next (s.afterFault .alloc ch s.pc))

/-- `LOOPNE`: enter on a stack with an entry, skip on an empty one; its two faults (44_loops.md R125). -/
def Obligations.LoopneEntersOrSkips : Prop :=
  decodesAs 0x7B .loopne ∧ ∀ s : State,
    (s.cur ≠ [] → s.cfg.ccap ≠ some s.cu.length →
      exec .loopne s = .next { s with cu := s.cu ++ [s.pc], pc := s.pc + 1 }) ∧
    (∀ m, s.cur = [] → s.scan 0x7B 0x7D (s.pc + 1) = some m → exec .loopne s = .next { s with pc := m + 1 }) ∧
    (∀ ch, s.cur = [] → s.scan 0x7B 0x7D (s.pc + 1) = none → s.memRead s.pc = some ch →
      exec .loopne s = .next (s.afterFault .unmatchedOpen ch s.pc)) ∧
    (∀ ch, s.cur ≠ [] → s.cfg.ccap = some s.cu.length → s.memRead s.pc = some ch →
      exec .loopne s = .next (s.afterFault .alloc ch s.pc))

/-- The closers return to the top of their own call stack, whatever it is, and fault when it is empty
(44_loops.md R123, R126). -/
def Obligations.ClosersReturnToTheirCallStack : Prop :=
  decodesAs 0x5D .endnz ∧ decodesAs 0x7D .endne ∧ ∀ s : State,
    (∀ l p, s.sq = l ++ [p] → exec .endnz s = .next { s with sq := l, pc := p }) ∧
    (∀ l p, s.cu = l ++ [p] → exec .endne s = .next { s with cu := l, pc := p }) ∧
    (∀ ch, s.sq = [] → s.memRead s.pc = some ch → exec .endnz s = .next (s.afterFault .unmatchedClose ch s.pc)) ∧
    (∀ ch, s.cu = [] → s.memRead s.pc = some ch → exec .endne s = .next (s.afterFault .unmatchedClose ch s.pc))

/-- The loop mechanism (44_loops.md R121): after an opener entered its body, a closer of its kind reached with the call
stack as it was left goes back to the opener, with that call stack as it was before the opener. -/
def Obligations.CloserUndoesItsOpenersEntry : Prop :=
  ∀ s t u : State,
    (exec .loopnz s = .next t → t.sq ≠ s.sq → u.sq = t.sq →
      exec .endnz u = .next { u with sq := s.sq, pc := s.pc }) ∧
    (exec .loopne s = .next t → t.cu ≠ s.cu → u.cu = t.cu →
      exec .endne u = .next { u with cu := s.cu, pc := s.pc })

/-! ### Registers -/

/-- `STORE` (45_registers.md R135): the value on top, the index under it. -/
def Obligations.StoreWritesTheIndexedRegister : Prop :=
  decodesAs 0x3D .store ∧ ∀ s : State,
    (∀ l i v, s.cur = l ++ [i, v] →
      exec .store s = .next { s.afterStack l (s.pc + 1) with reg := s.reg.set i.toNat v i.isLt }) ∧
    (∀ ch, s.cur.length < 2 → s.memRead s.pc = some ch → exec .store s = .next (s.afterFault .stackEmpty ch s.pc))

/-- `LOAD` (45_registers.md R136). -/
def Obligations.LoadPushesTheIndexedRegister : Prop :=
  decodesAs 0x24 .load ∧ ∀ s : State,
    (∀ l i, s.cur = l ++ [i] → s.cfg.dcap.holds s.cur.length = true →
      exec .load s = .next (s.afterStack (l ++ [s.reg[i.toNat]'i.isLt]) (s.pc + 1))) ∧
    (∀ ch, s.cur = [] → s.memRead s.pc = some ch → exec .load s = .next (s.afterFault .stackEmpty ch s.pc))

/-- The register round trip (45_registers.md R136): after a store, a load through the same index, from whatever stack,
pushes the stored value, and a load through another index pushes what it would have pushed before. -/
def Obligations.StoreThenLoadRoundTrip : Prop :=
  ∀ (s u : State) (l m : List Byte) (i j v : Byte), s.cur = l ++ [i, v] → u.cur = m ++ [j] →
    u.cfg.dcap.holds u.cur.length = true →
    ∃ t, exec .store s = .next t ∧ (u.reg = t.reg →
      exec .load u = .next (u.afterStack (m ++ [if j = i then v else s.reg[j.toNat]'j.isLt]) (u.pc + 1)))

/-! ### Literals -/

/-- `STR`: the body goes on from its last byte to its first, or not at all (46_literals.md R141; that
nothing is pushed when it does not fit is the spec's own decision, D20). -/
def Obligations.StringLiteralPushesItsBodyReversed : Prop :=
  ∀ (s : State) (body : List Byte),
    (s.cfg.dcap.holds (s.cur.length + body.length) = true →
      exec (.str (.closed body)) s = .next (s.afterStack (s.cur ++ body.reverse) (s.pc + body.length + 2))) ∧
    (∀ ch, s.cfg.dcap.holds (s.cur.length + body.length) = false → s.memRead s.pc = some ch →
      exec (.str (.closed body)) s = .next (s.afterFault .alloc ch s.pc)) ∧
    (∀ ch, s.memRead s.pc = some ch → exec (.str .unclosed) s = .next (s.afterFault .unclosedString ch s.pc))

/-- `STR`'s one push of a whole body is the loop of 46_literals.md R141: `Push` of each byte, last to first, after the test
for room. -/
def Obligations.StringPushIsALoopOfPushes : Prop :=
  ∀ (s : State) (body : List Byte), s.cfg.dcap.holds (s.cur.length + body.length) = true →
    s.pushBody body = body.reverse.foldlM (fun t b => t.push b) s

/-- `NUM` pushes the decimal number its digits spell, modulo 256, reduced once at the end: the same byte as the
digit-by-digit accumulator (46_literals.md R142, R143; 41_arithmetic_logic.md R99); its three faults. The value of the
empty literal is the spec's own derivation (D16). -/
def Obligations.NumericLiteralPushesNumberModulo256 : Prop :=
  ∀ (s : State) (ds : List Byte),
    ((∀ d ∈ ds, 0x30 ≤ d.toNat ∧ d.toNat ≤ 0x39) → s.cfg.dcap ≠ some s.cur.length →
      exec (.num (.closed ds)) s = .next (s.afterStack
        (s.cur ++ [BitVec.ofNat 8 (ds.foldl (fun n d => n * 10 + (d.toNat - 0x30)) 0 % 256)]) (s.pc + ds.length + 2))) ∧
    (∀ ch, s.cfg.dcap = some s.cur.length → s.memRead s.pc = some ch →
      exec (.num (.closed ds)) s = .next (s.afterFault .alloc ch s.pc)) ∧
    (∀ ch k, s.memRead s.pc = some ch →
      exec (.num (.badChar k)) s = .next (s.afterFault .numericBadChar ch (s.pc + 1 + k))) ∧
    (∀ ch, s.memRead s.pc = some ch → exec (.num .unclosed) s = .next (s.afterFault .unclosedNumeric ch s.pc))

/-! ### Faults -/

/-- A fault is precise and terminal (60_exceptions.md R152, R153): whatever the instruction, only `run` and the record
change, but for the answer that `,` consumed; the record names the instruction; and there is no further step. All of
it is the spec's own decision (D8, D24). -/
def Obligations.FaultsArePreciseAndTerminal : Prop :=
  ∀ (i : Instr) (s t : State), s.run = .running → exec i s = .next t → t.run ≠ .running →
    s.SameData t ∧ s.SameRun t ∧ (i ≠ .inb → t.input = s.input) ∧
    (∃ r, t.fault = some r ∧ t.run = (if r.kind = .alloc then .faultAlloc else .faultErr) ∧ r.pos = s.pc ∧
      s.memRead s.pc = some r.ch ∧ (r.kind ≠ .numericBadChar → r.aux = r.pos) ∧
      (r.kind = .numericBadChar → ∃ k, i = .num (.badChar k) ∧ r.aux = s.pc + 1 + k)) ∧
    ∀ u, step t ≠ .next u

/-- The three instruction classes that raise nothing (60_exceptions.md R154), and what the others may raise: each kind only
from the instructions of its row. -/
def mayRaise : FaultKind → Instr → Bool
  | .stackEmpty, i => i ∈ [.add, .sub, .mul, .div, .mod, .and, .or, .xor, .swap, .store] ++
      [.drop, .dup, .outb, .outd, .load, .loopnz]
  | .unmatchedClose, i => i ∈ [.endnz, .endne]
  | .unmatchedOpen, i => i ∈ [.loopnz, .loopne]
  | .unclosedString, i => i = .str .unclosed
  | .unclosedNumeric, i => i = .num .unclosed
  | .numericBadChar, .num (.badChar _) => true
  | .numericBadChar, _ => false
  | .divZero, i => i ∈ [.div, .mod]
  | .alloc, .pushd _ => true
  | .alloc, .pushl _ => true
  | .alloc, .str (.closed _) => true
  | .alloc, .num (.closed _) => true
  | .alloc, i => i ∈ [.dup, .inb, .loopnz, .loopne]

/-- Each fault kind is raised only by the instructions 60_exceptions.md R154 lists for it, in states within their
capacity; `NEXT`, `PREV` and the no-op raise nothing. -/
def Obligations.FaultKindsComeFromTheirInstructions : Prop :=
  ∀ (i : Instr) (s t : State) (r : FaultRecord), s.run = .running → s.cfg.dcap.holds s.cur.length = true →
    exec i s = .next t → t.run ≠ .running → t.fault = some r → mayRaise r.kind i = true

/-- The cause codes and the exit statuses (60_exceptions.md R151, R154; the spec's own decisions D9, D10). -/
def Obligations.FaultCodesAndExitStatuses : Prop :=
  ([.stackEmpty, .unmatchedClose, .unmatchedOpen, .unclosedString, .unclosedNumeric, .numericBadChar, .divZero,
    .alloc] : List FaultKind).map FaultKind.code = [1, 2, 3, 4, 5, 6, 7, 8] ∧
  RunStatus.running.exitStatus = none ∧ RunStatus.haltOk.exitStatus = some 0 ∧
  ∀ (s t : State) (k : FaultKind) (aux : Nat), s.raise k aux = .next t →
    t.run.exitStatus = some (if k = .alloc then 2 else 1)

/-! ### Whole-machine rules -/

/-- Who may write what (10_state.md R21 to R24, R29; 60_exceptions.md R152): registers only `=`; the selector only `>` and
`<`; each call stack only its own brackets; no stack but the current one, and none at all by the loops, the selector moves
and the no-op; the output grows only by `.` and `;`; answers are taken only by `,`. -/
def Obligations.OnlyTheNamedInstructionsWrite : Prop :=
  ∀ (i : Instr) (s t : State), exec i s = .next t →
    (i ≠ .store → t.reg = s.reg) ∧ (i ≠ .next → i ≠ .prev → t.sel = s.sel) ∧
    (i ≠ .loopnz → i ≠ .endnz → t.sq = s.sq) ∧ (i ≠ .loopne → i ≠ .endne → t.cu = s.cu) ∧
    (∀ k : Fin 256, k.val ≠ s.sel.toNat → t.stk[k] = s.stk[k]) ∧
    (i ∈ [.loopnz, .endnz, .loopne, .endne, .next, .prev] ∨ (∃ c, i = .nop c) → t.stk = s.stk) ∧
    (∃ bs, t.out = s.out ++ bs ∧ (i ≠ .outb → i ≠ .outd → bs = [])) ∧ (i ≠ .inb → t.input = s.input) ∧
    (t.run = .running → s.run = .running ∧ t.fault = s.fault)

/-- What an instruction that completes makes the next `pc` (10_state.md R25). -/
def nextPcRule (i : Instr) (s t : State) : Prop :=
  match i with
  | .endnz => s.sq = t.sq ++ [t.pc]
  | .endne => s.cu = t.cu ++ [t.pc]
  | .loopnz => (t.pc = s.pc + 1 ∧ t.sq = s.sq ++ [s.pc]) ∨
      ∃ m, s.scan 0x5B 0x5D (s.pc + 1) = some m ∧ t.pc = m + 1 ∧ t.sq = s.sq
  | .loopne => (t.pc = s.pc + 1 ∧ t.cu = s.cu ++ [s.pc]) ∨
      ∃ m, s.scan 0x7B 0x7D (s.pc + 1) = some m ∧ t.pc = m + 1 ∧ t.cu = s.cu
  | i => ∃ n, i.length = some n ∧ t.pc = s.pc + n

/-- The next `pc` of every instruction that completes is the one its row of 10_state.md R25 gives. -/
def Obligations.NextPcFollowsTheTable : Prop :=
  ∀ (i : Instr) (s t : State), exec i s = .next t → t.run = .running → nextPcRule i s t

/-- The program, `PLEN`, `EOFVAL` and the parameters stay as they are for a whole run (10_state.md R26, R27;
20_memory.md R53). -/
def Obligations.StepsKeepTheRunParameters : Prop :=
  ∀ s t : State, step s = .next t → s.SameRun t ∧ ∀ a, t.memRead a = s.memRead a

/-- What an instruction may read (10_state.md R21, R22, R24, R27, R29): change a piece of state that the instruction is not
given, and it does the same, the change carried along. The registers are read only by `$` and written only by `=`; `EOFVAL`
is read only by `,`; a stack that is not current by nothing; each call stack only by its own brackets; the output history by
nothing; the answers only by `,`. -/
def Obligations.InstructionsReadOnlyTheirOwnState : Prop :=
  ∀ (i : Instr) (s : State),
    (∀ r, i ≠ .load → i ≠ .store → exec i { s with reg := r } = mapNext (fun t => { t with reg := r }) (exec i s)) ∧
    (∀ e, i ≠ .inb → exec i { s with eofval := e } = mapNext (fun t => { t with eofval := e }) (exec i s)) ∧
    (∀ (k : Fin 256) (l : List Byte), k.val ≠ s.sel.toNat →
      exec i { s with stk := s.stk.set k.val l } = mapNext (fun t => { t with stk := t.stk.set k.val l }) (exec i s)) ∧
    (∀ q, i ≠ .loopnz → i ≠ .endnz → exec i { s with sq := q } = mapNext (fun t => { t with sq := q }) (exec i s)) ∧
    (∀ q, i ≠ .loopne → i ≠ .endne → exec i { s with cu := q } = mapNext (fun t => { t with cu := q }) (exec i s)) ∧
    (∀ o, exec i { s with out := o ++ s.out } = mapNext (fun t => { t with out := o ++ t.out }) (exec i s)) ∧
    (∀ a, i ≠ .inb → exec i { s with input := a } = mapNext (fun t => { t with input := a }) (exec i s))

/-! ### Reset, the loader and the invariant -/

/-- Reset, in any state, gives the core the values of 10_state.md R32 and leaves the program, `PLEN` and `EOFVAL`
(70_reset_and_hazards.md R170; the spec's own decisions D4, D10, D19). -/
def Obligations.ResetGivesTheInitialState : Prop :=
  ∀ s : State, let t := s.hardReset
    (∀ k : Fin 256, t.reg[k] = 0 ∧ t.stk[k] = []) ∧ t.sel = 0 ∧ t.sq = [] ∧ t.cu = [] ∧ t.pc = 0 ∧ t.run = .running ∧
    t.fault = none ∧ t.out = [] ∧ t.prog = s.prog ∧ t.plen = s.plen ∧ t.eofval = s.eofval

/-- The core's values in `State.reset` (10_state.md R32; `sel`, `run` and `fault` by the spec's own decisions D4, D10). -/
def Obligations.ResetStateHasTheSpecValues : Prop :=
  (∀ k : Fin 256, State.reset.reg[k] = 0 ∧ State.reset.stk[k] = []) ∧ State.reset.sel = 0 ∧ State.reset.sq = [] ∧
  State.reset.cu = [] ∧ State.reset.pc = 0 ∧ State.reset.run = .running ∧ State.reset.fault = none ∧ State.reset.out = []

/-- A loaded program reads back byte for byte below `PLEN`, is undefined from `PLEN` on, and is in canonical form
(10_state.md R26, 20_memory.md R41). -/
def Obligations.LoadedProgramReadsBack : Prop :=
  ∀ (s : State) (bs : List Byte) (a : Nat),
    (s.load bs).memRead a = bs[a]? ∧ (s.load bs).plen = bs.length ∧ (s.load bs).prog.wf

/-- Writing one byte of a program in canonical form changes that byte only and keeps the form: the model's own memory
(log entry 9). -/
def Obligations.MemoryWriteChangesOneByte : Prop :=
  ∀ (m : Memory) (a a' : Nat) (b : Byte), m.wf →
    (m.write a b).wf ∧ (m.write a b).read a' = if a' = a then b else m.read a'

/-- The reset state is legal. -/
def Obligations.ResetStateIsLegal : Prop := State.reset.Inv

/-- Reset makes any state with a legal program and legal parameters legal, whatever else it held
(70_reset_and_hazards.md R170). -/
def Obligations.ResetMakesLegal : Prop := ∀ s : State, s.ProgramLoaded → s.hardReset.Inv

/-- Every step from a legal state leads to a legal state: stacks within their capacities (10_state.md R33), call-stack
entries at openers (R24), `pc` in `0..PLEN` (R25), status and record in agreement (R28), the program's form kept. -/
def Obligations.StepKeepsTheInvariant : Prop :=
  ∀ s t : State, s.Inv → step s = .next t → t.Inv

/-- A legal machine that has not stopped and is not waiting for input takes a step (30_encoding.md R69). -/
def Obligations.LegalRunningMachineSteps : Prop :=
  ∀ s : State, s.Inv → s.run = .running → (∃ t, step s = .next t) ∨ (s.memRead s.pc = some 0x2C ∧ s.input = [])
end

