-- ==== Sys2Proof/Laws/Decode.lean ====
section
/-! SUPPORT. One lemma per function of the decoder: the byte classes, the two literal scans, the first byte. -/

namespace Sys2Proof

/-! ### Byte classes -/

theorem isDigit_iff {c : Byte} : isDigit c = true ↔ 0x30 ≤ c.toNat ∧ c.toNat ≤ 0x39 := by
  simp [isDigit, BitVec.le_def]

theorem isLetter_iff {c : Byte} :
    isLetter c = true ↔ (0x41 ≤ c.toNat ∧ c.toNat ≤ 0x5A) ∨ (0x61 ≤ c.toNat ∧ c.toNat ≤ 0x7A) := by
  simp [isLetter, BitVec.le_def]

theorem wfDigitChar_eq : wfDigitChar = isDigit := by
  funext c
  rw [Bool.eq_iff_iff, isDigit_iff]
  simp [wfDigitChar]

theorem wfLetterChar_eq : wfLetterChar = isLetter := by
  funext c
  rw [Bool.eq_iff_iff, isLetter_iff]
  simp [wfLetterChar]

/-! ### The string scan (46_literals.md R140) -/

theorem findQuote_quote {esc : Option Byte} (hq : esc ≠ some 0x22#8) (rest : List Byte) :
    findQuote esc (0x22#8 :: rest) = some 0 := by
  cases rest <;> simp [findQuote, hq]

theorem findQuote_escape {b : Byte} (c : Byte) (rest : List Byte) :
    findQuote (some b) (b :: c :: rest) = (findQuote (some b) rest).map (· + 2) := by
  simp [findQuote]

theorem findQuote_plain {esc : Option Byte} {b : Byte} (hb : esc ≠ some b) (hq : b ≠ 0x22#8) (rest : List Byte) :
    findQuote esc (b :: rest) = (findQuote esc rest).map (· + 1) := by
  cases rest <;> simp [findQuote, hb, hq]

/-- A body in which every quote is escaped and no escape dangles is closed by the quote after it. -/
theorem findQuote_of_wf {esc : Option Byte} (hq : esc ≠ some 0x22#8) (body rest : List Byte)
    (h : wfStrBody esc body = true) : findQuote esc (body ++ 0x22#8 :: rest) = some body.length := by
  induction body using wfStrBody.induct (esc := esc) with
  | case1 => exact findQuote_quote hq rest
  | case2 b =>
    simp [wfStrBody] at h
    rw [List.cons_append, findQuote_plain h.1 h.2, List.nil_append, findQuote_quote hq]
    rfl
  | case3 b c bs hb ih =>
    subst hb
    simp [wfStrBody] at h
    rw [List.cons_append, List.cons_append, findQuote_escape, ih h]
    rfl
  | case4 b c bs hb ih =>
    simp [wfStrBody, hb] at h
    rw [List.cons_append, findQuote_plain hb h.1, ih h.2]
    rfl

/-- What the scan finds: the offset of a quote, before which every quote is escaped and no escape dangles. -/
theorem findQuote_some {esc : Option Byte} {l : List Byte} {m : Nat} (h : findQuote esc l = some m) :
    esc ≠ some 0x22#8 ∧ wfStrBody esc (l.take m) = true ∧ l = l.take m ++ 0x22#8 :: l.drop (m + 1) := by
  induction l using findQuote.induct (esc := esc) generalizing m with
  | case1 => simp [findQuote] at h
  | case2 b hb => simp [findQuote, hb] at h
  | case3 hb =>
    simp [findQuote, hb] at h
    subst h
    exact ⟨hb, by simp [wfStrBody], by simp⟩
  | case4 b hb hq => rw [findQuote_plain hb hq] at h; simp [findQuote] at h
  | case5 b c rest hb ih =>
    subst hb
    rw [findQuote_escape] at h
    obtain ⟨n, hn, rfl⟩ := Option.map_eq_some_iff.mp h
    obtain ⟨h1, h2, h3⟩ := ih hn
    refine ⟨h1, by simp [wfStrBody, h2], ?_⟩
    simp only [List.take_succ_cons, List.drop_succ_cons, List.cons_append]
    rw [← h3]
  | case6 c rest hb =>
    rw [findQuote_quote hb] at h
    cases h
    exact ⟨hb, by simp [wfStrBody], by simp⟩
  | case7 b c rest hb hq ih =>
    rw [findQuote_plain hb hq] at h
    obtain ⟨n, hn, rfl⟩ := Option.map_eq_some_iff.mp h
    obtain ⟨h1, h2, h3⟩ := ih hn
    refine ⟨h1, ?_, ?_⟩
    · cases n with
      | zero => simp [wfStrBody, hb, hq]
      | succ n => simpa [wfStrBody, hb, hq] using h2
    · rw [List.take_succ_cons, List.drop_succ_cons, List.cons_append, ← h3]

/-! ### The numeric scan (46_literals.md R142) -/

theorem scanNumber_quote (i : Nat) (rest : List Byte) : scanNumber i (0x27#8 :: rest) = .closed i := by
  simp [scanNumber]

theorem scanNumber_digit {c : Byte} (h : isDigit c = true) (i : Nat) (rest : List Byte) :
    scanNumber i (c :: rest) = scanNumber (i + 1) rest := by
  have hq : c ≠ 0x27#8 := by rintro rfl; simp [isDigit] at h
  simp [scanNumber, hq, h]

theorem scanNumber_other {c : Byte} (hd : isDigit c = false) (hq : c ≠ 0x27#8) (i : Nat) (rest : List Byte) :
    scanNumber i (c :: rest) = .badChar i := by
  simp [scanNumber, hq, hd]

/-- Digits are passed over. -/
theorem scanNumber_append (i : Nat) (ds rest : List Byte) (h : ∀ d ∈ ds, isDigit d = true) :
    scanNumber i (ds ++ rest) = scanNumber (i + ds.length) rest := by
  induction ds generalizing i with
  | nil => simp
  | cons d ds ih =>
    rw [List.cons_append, scanNumber_digit (h d (by simp)), ih (i + 1) fun x hx => h x (by simp [hx])]
    congr 1
    simp
    omega

/-- A byte list is digits only, or digits and then a first byte that is none. -/
theorem digits_split (l : List Byte) :
    (∀ d ∈ l, isDigit d = true) ∨ ∃ ds c rest, (∀ d ∈ ds, isDigit d = true) ∧ isDigit c = false ∧ l = ds ++ c :: rest := by
  induction l with
  | nil => exact .inl (by simp)
  | cons c rest ih =>
    cases hd : isDigit c with
    | false => exact .inr ⟨[], c, rest, by simp, hd, rfl⟩
    | true =>
      rcases ih with h | ⟨ds, b, r, h1, h2, rfl⟩
      · exact .inl (by simpa [hd] using h)
      · exact .inr ⟨c :: ds, b, r, by simpa [hd] using h1, h2, rfl⟩

/-- Digits only: the program ends inside the literal. -/
theorem decodeNum_unclosed {l : List Byte} (h : ∀ d ∈ l, isDigit d = true) : decodeNum l = .unclosed := by
  have : scanNumber 0 l = .unclosed := by
    have h1 := scanNumber_append 0 l [] h
    rw [List.append_nil] at h1
    rw [h1]; rfl
  simp [decodeNum, this]

/-- Digits and then the quote. -/
theorem decodeNum_closed {ds : List Byte} (h : ∀ d ∈ ds, isDigit d = true) (rest : List Byte) :
    decodeNum (ds ++ 0x27#8 :: rest) = .closed ds := by
  have : scanNumber 0 (ds ++ 0x27#8 :: rest) = .closed ds.length := by
    rw [scanNumber_append 0 ds _ h, scanNumber_quote, Nat.zero_add]
  simp [decodeNum, this]

/-- Digits and then a byte that is neither a digit nor the quote. -/
theorem decodeNum_badChar {ds : List Byte} (h : ∀ d ∈ ds, isDigit d = true) {c : Byte} (hd : isDigit c = false)
    (hq : c ≠ 0x27#8) (rest : List Byte) : decodeNum (ds ++ c :: rest) = .badChar ds.length := by
  have : scanNumber 0 (ds ++ c :: rest) = .badChar ds.length := by
    rw [scanNumber_append 0 ds _ h, scanNumber_other hd hq, Nat.zero_add]
  simp [decodeNum, this]

/-! ### The first byte -/

theorem decode_cons (esc : Option Byte) (c : Byte) (tail : List Byte) :
    decode esc (c :: tail) = .ok (decodeByte esc c tail) := rfl

/-- A byte with no row of the table is a filler byte (30_encoding.md R65: 10 + 52 + 24 + 170 = 256). -/
theorem filler_of_no_row : ∀ c : Byte, isDigit c = false → isLetter c = false → c ≠ 0x22#8 → c ≠ 0x27#8 →
    operatorTable.lookup c = none → wfFillerChar c = true := by
  decide

/-- The six classes of the first byte (30_encoding.md R61, R65). -/
theorem decodeByte_cases (esc : Option Byte) (c : Byte) (tail : List Byte) :
    (isDigit c = true ∧ decodeByte esc c tail = .pushd (c - 0x30#8)) ∨
    (isLetter c = true ∧ decodeByte esc c tail = .pushl c) ∨
    (c = 0x22#8 ∧ decodeByte esc c tail = .str (decodeStr esc tail)) ∨
    (c = 0x27#8 ∧ decodeByte esc c tail = .num (decodeNum tail)) ∨
    (∃ i, operatorTable.lookup c = some i ∧ decodeByte esc c tail = i) ∨
    (wfFillerChar c = true ∧ decodeByte esc c tail = .nop c) := by
  unfold decodeByte
  cases hd : isDigit c with
  | true => exact .inl ⟨rfl, by simp⟩
  | false =>
    cases hl : isLetter c with
    | true => exact .inr (.inl ⟨rfl, by simp⟩)
    | false =>
      by_cases hs : c = 0x22#8
      · exact .inr (.inr (.inl ⟨hs, by simp [hs]⟩))
      · by_cases hn : c = 0x27#8
        · exact .inr (.inr (.inr (.inl ⟨hn, by simp [hn]⟩)))
        · cases ht : operatorTable.lookup c with
          | some i => exact .inr (.inr (.inr (.inr (.inl ⟨i, rfl, by simp [hs, hn]⟩))))
          | none =>
            exact .inr (.inr (.inr (.inr (.inr ⟨filler_of_no_row c hd hl hs hn ht, by simp [hs, hn]⟩))))

end Sys2Proof
end

