-- ==== Sys2Proof/Laws/State.lean ====
section
/-! SUPPORT. One lemma per field per update of State, so that no later proof unfolds a record update, and the same for
the accessors built on the fields. -/

namespace Sys2Proof.Machine.State

variable (s : State)

/-! ### setPc -/

@[simp] theorem setPc_reg (t : Nat) : (s.setPc t).reg = s.reg := rfl
@[simp] theorem setPc_stk (t : Nat) : (s.setPc t).stk = s.stk := rfl
@[simp] theorem setPc_sel (t : Nat) : (s.setPc t).sel = s.sel := rfl
@[simp] theorem setPc_sq (t : Nat) : (s.setPc t).sq = s.sq := rfl
@[simp] theorem setPc_cu (t : Nat) : (s.setPc t).cu = s.cu := rfl
@[simp] theorem setPc_pc (t : Nat) : (s.setPc t).pc = t := rfl
@[simp] theorem setPc_run (t : Nat) : (s.setPc t).run = s.run := rfl
@[simp] theorem setPc_fault (t : Nat) : (s.setPc t).fault = s.fault := rfl
@[simp] theorem setPc_prog (t : Nat) : (s.setPc t).prog = s.prog := rfl
@[simp] theorem setPc_plen (t : Nat) : (s.setPc t).plen = s.plen := rfl
@[simp] theorem setPc_eofval (t : Nat) : (s.setPc t).eofval = s.eofval := rfl
@[simp] theorem setPc_cfg (t : Nat) : (s.setPc t).cfg = s.cfg := rfl
@[simp] theorem setPc_input (t : Nat) : (s.setPc t).input = s.input := rfl
@[simp] theorem setPc_out (t : Nat) : (s.setPc t).out = s.out := rfl

/-! ### advance -/

@[simp] theorem advance_reg : (s.advance).reg = s.reg := rfl
@[simp] theorem advance_stk : (s.advance).stk = s.stk := rfl
@[simp] theorem advance_sel : (s.advance).sel = s.sel := rfl
@[simp] theorem advance_sq : (s.advance).sq = s.sq := rfl
@[simp] theorem advance_cu : (s.advance).cu = s.cu := rfl
@[simp] theorem advance_pc : (s.advance).pc = s.pc + 1 := rfl
@[simp] theorem advance_run : (s.advance).run = s.run := rfl
@[simp] theorem advance_fault : (s.advance).fault = s.fault := rfl
@[simp] theorem advance_prog : (s.advance).prog = s.prog := rfl
@[simp] theorem advance_plen : (s.advance).plen = s.plen := rfl
@[simp] theorem advance_eofval : (s.advance).eofval = s.eofval := rfl
@[simp] theorem advance_cfg : (s.advance).cfg = s.cfg := rfl
@[simp] theorem advance_input : (s.advance).input = s.input := rfl
@[simp] theorem advance_out : (s.advance).out = s.out := rfl

/-! ### setCur -/

@[simp] theorem setCur_reg (l : List Byte) : (s.setCur l).reg = s.reg := rfl
@[simp] theorem setCur_stk (l : List Byte) : (s.setCur l).stk = s.stk.set s.sel.toNat l s.sel.isLt := rfl
@[simp] theorem setCur_sel (l : List Byte) : (s.setCur l).sel = s.sel := rfl
@[simp] theorem setCur_sq (l : List Byte) : (s.setCur l).sq = s.sq := rfl
@[simp] theorem setCur_cu (l : List Byte) : (s.setCur l).cu = s.cu := rfl
@[simp] theorem setCur_pc (l : List Byte) : (s.setCur l).pc = s.pc := rfl
@[simp] theorem setCur_run (l : List Byte) : (s.setCur l).run = s.run := rfl
@[simp] theorem setCur_fault (l : List Byte) : (s.setCur l).fault = s.fault := rfl
@[simp] theorem setCur_prog (l : List Byte) : (s.setCur l).prog = s.prog := rfl
@[simp] theorem setCur_plen (l : List Byte) : (s.setCur l).plen = s.plen := rfl
@[simp] theorem setCur_eofval (l : List Byte) : (s.setCur l).eofval = s.eofval := rfl
@[simp] theorem setCur_cfg (l : List Byte) : (s.setCur l).cfg = s.cfg := rfl
@[simp] theorem setCur_input (l : List Byte) : (s.setCur l).input = s.input := rfl
@[simp] theorem setCur_out (l : List Byte) : (s.setCur l).out = s.out := rfl

/-! ### writeReg -/

@[simp] theorem writeReg_reg (i v : Byte) : (s.writeReg i v).reg = s.reg.set i.toNat v i.isLt := rfl
@[simp] theorem writeReg_stk (i v : Byte) : (s.writeReg i v).stk = s.stk := rfl
@[simp] theorem writeReg_sel (i v : Byte) : (s.writeReg i v).sel = s.sel := rfl
@[simp] theorem writeReg_sq (i v : Byte) : (s.writeReg i v).sq = s.sq := rfl
@[simp] theorem writeReg_cu (i v : Byte) : (s.writeReg i v).cu = s.cu := rfl
@[simp] theorem writeReg_pc (i v : Byte) : (s.writeReg i v).pc = s.pc := rfl
@[simp] theorem writeReg_run (i v : Byte) : (s.writeReg i v).run = s.run := rfl
@[simp] theorem writeReg_fault (i v : Byte) : (s.writeReg i v).fault = s.fault := rfl
@[simp] theorem writeReg_prog (i v : Byte) : (s.writeReg i v).prog = s.prog := rfl
@[simp] theorem writeReg_plen (i v : Byte) : (s.writeReg i v).plen = s.plen := rfl
@[simp] theorem writeReg_eofval (i v : Byte) : (s.writeReg i v).eofval = s.eofval := rfl
@[simp] theorem writeReg_cfg (i v : Byte) : (s.writeReg i v).cfg = s.cfg := rfl
@[simp] theorem writeReg_input (i v : Byte) : (s.writeReg i v).input = s.input := rfl
@[simp] theorem writeReg_out (i v : Byte) : (s.writeReg i v).out = s.out := rfl

/-! ### emit -/

@[simp] theorem emit_reg (bs : List Byte) : (s.emit bs).reg = s.reg := rfl
@[simp] theorem emit_stk (bs : List Byte) : (s.emit bs).stk = s.stk := rfl
@[simp] theorem emit_sel (bs : List Byte) : (s.emit bs).sel = s.sel := rfl
@[simp] theorem emit_sq (bs : List Byte) : (s.emit bs).sq = s.sq := rfl
@[simp] theorem emit_cu (bs : List Byte) : (s.emit bs).cu = s.cu := rfl
@[simp] theorem emit_pc (bs : List Byte) : (s.emit bs).pc = s.pc := rfl
@[simp] theorem emit_run (bs : List Byte) : (s.emit bs).run = s.run := rfl
@[simp] theorem emit_fault (bs : List Byte) : (s.emit bs).fault = s.fault := rfl
@[simp] theorem emit_prog (bs : List Byte) : (s.emit bs).prog = s.prog := rfl
@[simp] theorem emit_plen (bs : List Byte) : (s.emit bs).plen = s.plen := rfl
@[simp] theorem emit_eofval (bs : List Byte) : (s.emit bs).eofval = s.eofval := rfl
@[simp] theorem emit_cfg (bs : List Byte) : (s.emit bs).cfg = s.cfg := rfl
@[simp] theorem emit_input (bs : List Byte) : (s.emit bs).input = s.input := rfl
@[simp] theorem emit_out (bs : List Byte) : (s.emit bs).out = s.out ++ bs := rfl

/-! ### dropAnswer -/

@[simp] theorem dropAnswer_reg (rest : List InputAnswer) : (s.dropAnswer rest).reg = s.reg := rfl
@[simp] theorem dropAnswer_stk (rest : List InputAnswer) : (s.dropAnswer rest).stk = s.stk := rfl
@[simp] theorem dropAnswer_sel (rest : List InputAnswer) : (s.dropAnswer rest).sel = s.sel := rfl
@[simp] theorem dropAnswer_sq (rest : List InputAnswer) : (s.dropAnswer rest).sq = s.sq := rfl
@[simp] theorem dropAnswer_cu (rest : List InputAnswer) : (s.dropAnswer rest).cu = s.cu := rfl
@[simp] theorem dropAnswer_pc (rest : List InputAnswer) : (s.dropAnswer rest).pc = s.pc := rfl
@[simp] theorem dropAnswer_run (rest : List InputAnswer) : (s.dropAnswer rest).run = s.run := rfl
@[simp] theorem dropAnswer_fault (rest : List InputAnswer) : (s.dropAnswer rest).fault = s.fault := rfl
@[simp] theorem dropAnswer_prog (rest : List InputAnswer) : (s.dropAnswer rest).prog = s.prog := rfl
@[simp] theorem dropAnswer_plen (rest : List InputAnswer) : (s.dropAnswer rest).plen = s.plen := rfl
@[simp] theorem dropAnswer_eofval (rest : List InputAnswer) : (s.dropAnswer rest).eofval = s.eofval := rfl
@[simp] theorem dropAnswer_cfg (rest : List InputAnswer) : (s.dropAnswer rest).cfg = s.cfg := rfl
@[simp] theorem dropAnswer_input (rest : List InputAnswer) : (s.dropAnswer rest).input = rest := rfl
@[simp] theorem dropAnswer_out (rest : List InputAnswer) : (s.dropAnswer rest).out = s.out := rfl

/-! ### setCalls -/

@[simp] theorem setCalls_reg (c : CallStack) (l : List Nat) : (s.setCalls c l).reg = s.reg := by cases c <;> rfl
@[simp] theorem setCalls_stk (c : CallStack) (l : List Nat) : (s.setCalls c l).stk = s.stk := by cases c <;> rfl
@[simp] theorem setCalls_sel (c : CallStack) (l : List Nat) : (s.setCalls c l).sel = s.sel := by cases c <;> rfl
@[simp] theorem setCalls_pc (c : CallStack) (l : List Nat) : (s.setCalls c l).pc = s.pc := by cases c <;> rfl
@[simp] theorem setCalls_run (c : CallStack) (l : List Nat) : (s.setCalls c l).run = s.run := by cases c <;> rfl
@[simp] theorem setCalls_fault (c : CallStack) (l : List Nat) : (s.setCalls c l).fault = s.fault := by cases c <;> rfl
@[simp] theorem setCalls_prog (c : CallStack) (l : List Nat) : (s.setCalls c l).prog = s.prog := by cases c <;> rfl
@[simp] theorem setCalls_plen (c : CallStack) (l : List Nat) : (s.setCalls c l).plen = s.plen := by cases c <;> rfl
@[simp] theorem setCalls_eofval (c : CallStack) (l : List Nat) : (s.setCalls c l).eofval = s.eofval := by cases c <;> rfl
@[simp] theorem setCalls_cfg (c : CallStack) (l : List Nat) : (s.setCalls c l).cfg = s.cfg := by cases c <;> rfl
@[simp] theorem setCalls_input (c : CallStack) (l : List Nat) : (s.setCalls c l).input = s.input := by cases c <;> rfl
@[simp] theorem setCalls_out (c : CallStack) (l : List Nat) : (s.setCalls c l).out = s.out := by cases c <;> rfl

/-! ### halt -/

@[simp] theorem halt_reg : (s.halt).reg = s.reg := rfl
@[simp] theorem halt_stk : (s.halt).stk = s.stk := rfl
@[simp] theorem halt_sel : (s.halt).sel = s.sel := rfl
@[simp] theorem halt_sq : (s.halt).sq = s.sq := rfl
@[simp] theorem halt_cu : (s.halt).cu = s.cu := rfl
@[simp] theorem halt_pc : (s.halt).pc = s.pc := rfl
@[simp] theorem halt_run : (s.halt).run = .haltOk := rfl
@[simp] theorem halt_fault : (s.halt).fault = s.fault := rfl
@[simp] theorem halt_prog : (s.halt).prog = s.prog := rfl
@[simp] theorem halt_plen : (s.halt).plen = s.plen := rfl
@[simp] theorem halt_eofval : (s.halt).eofval = s.eofval := rfl
@[simp] theorem halt_cfg : (s.halt).cfg = s.cfg := rfl
@[simp] theorem halt_input : (s.halt).input = s.input := rfl
@[simp] theorem halt_out : (s.halt).out = s.out := rfl

/-! ### answer -/

@[simp] theorem answer_reg (a : InputAnswer) : (s.answer a).reg = s.reg := rfl
@[simp] theorem answer_stk (a : InputAnswer) : (s.answer a).stk = s.stk := rfl
@[simp] theorem answer_sel (a : InputAnswer) : (s.answer a).sel = s.sel := rfl
@[simp] theorem answer_sq (a : InputAnswer) : (s.answer a).sq = s.sq := rfl
@[simp] theorem answer_cu (a : InputAnswer) : (s.answer a).cu = s.cu := rfl
@[simp] theorem answer_pc (a : InputAnswer) : (s.answer a).pc = s.pc := rfl
@[simp] theorem answer_run (a : InputAnswer) : (s.answer a).run = s.run := rfl
@[simp] theorem answer_fault (a : InputAnswer) : (s.answer a).fault = s.fault := rfl
@[simp] theorem answer_prog (a : InputAnswer) : (s.answer a).prog = s.prog := rfl
@[simp] theorem answer_plen (a : InputAnswer) : (s.answer a).plen = s.plen := rfl
@[simp] theorem answer_eofval (a : InputAnswer) : (s.answer a).eofval = s.eofval := rfl
@[simp] theorem answer_cfg (a : InputAnswer) : (s.answer a).cfg = s.cfg := rfl
@[simp] theorem answer_input (a : InputAnswer) : (s.answer a).input = s.input ++ [a] := rfl
@[simp] theorem answer_out (a : InputAnswer) : (s.answer a).out = s.out := rfl

/-! ### load -/

@[simp] theorem load_reg (bs : List Byte) : (s.load bs).reg = s.reg := rfl
@[simp] theorem load_stk (bs : List Byte) : (s.load bs).stk = s.stk := rfl
@[simp] theorem load_sel (bs : List Byte) : (s.load bs).sel = s.sel := rfl
@[simp] theorem load_sq (bs : List Byte) : (s.load bs).sq = s.sq := rfl
@[simp] theorem load_cu (bs : List Byte) : (s.load bs).cu = s.cu := rfl
@[simp] theorem load_pc (bs : List Byte) : (s.load bs).pc = s.pc := rfl
@[simp] theorem load_run (bs : List Byte) : (s.load bs).run = s.run := rfl
@[simp] theorem load_fault (bs : List Byte) : (s.load bs).fault = s.fault := rfl
@[simp] theorem load_prog (bs : List Byte) : (s.load bs).prog = Memory.writeBytes [] 0 bs := rfl
@[simp] theorem load_plen (bs : List Byte) : (s.load bs).plen = bs.length := rfl
@[simp] theorem load_eofval (bs : List Byte) : (s.load bs).eofval = s.eofval := rfl
@[simp] theorem load_cfg (bs : List Byte) : (s.load bs).cfg = s.cfg := rfl
@[simp] theorem load_input (bs : List Byte) : (s.load bs).input = s.input := rfl
@[simp] theorem load_out (bs : List Byte) : (s.load bs).out = s.out := rfl

@[simp] theorem setCalls_square_sq (l : List Nat) : (s.setCalls .square l).sq = l := rfl
@[simp] theorem setCalls_square_cu (l : List Nat) : (s.setCalls .square l).cu = s.cu := rfl
@[simp] theorem setCalls_curly_sq (l : List Nat) : (s.setCalls .curly l).sq = s.sq := rfl
@[simp] theorem setCalls_curly_cu (l : List Nat) : (s.setCalls .curly l).cu = l := rfl
@[simp] theorem calls_square : s.calls .square = s.sq := rfl
@[simp] theorem calls_curly : s.calls .curly = s.cu := rfl

/-! ### The current stack -/

@[simp] theorem cur_setPc (t : Nat) : (s.setPc t).cur = s.cur := rfl
@[simp] theorem cur_advance : s.advance.cur = s.cur := rfl
@[simp] theorem cur_writeReg (i v : Byte) : (s.writeReg i v).cur = s.cur := rfl
@[simp] theorem cur_emit (bs : List Byte) : (s.emit bs).cur = s.cur := rfl
@[simp] theorem cur_dropAnswer (rest : List InputAnswer) : (s.dropAnswer rest).cur = s.cur := rfl
@[simp] theorem cur_setCalls (c : CallStack) (l : List Nat) : (s.setCalls c l).cur = s.cur := by cases c <;> rfl

@[simp] theorem cur_setCur (l : List Byte) : (s.setCur l).cur = l := by simp [cur]

@[simp] theorem setCur_setCur (l m : List Byte) : (s.setCur l).setCur m = s.setCur m := by
  simp [setCur, Vector.set_set]

@[simp] theorem setCur_cur : s.setCur s.cur = s := by simp [setCur, cur]

/-- Replacing the current stack leaves every other stack alone (10_state.md R22). -/
theorem setCur_stk_ne (l : List Byte) {k : Nat} (hk : k < 256) (h : k ≠ s.sel.toNat) :
    (s.setCur l).stk[k] = s.stk[k] := by
  simp [h.symm]

/-! ### Registers -/

theorem readReg_writeReg (i v j : Byte) : (s.writeReg i v).readReg j = if j = i then v else s.readReg j := by
  by_cases h : j = i
  · subst h; simp [readReg]
  · have : i.toNat ≠ j.toNat := fun e => h (BitVec.eq_of_toNat_eq e.symm)
    simp [readReg, h, this]

@[simp] theorem readReg_setCur (l : List Byte) (i : Byte) : (s.setCur l).readReg i = s.readReg i := rfl

/-! ### The program, and what reads it -/

theorem memRead_congr {s t : State} (hp : t.prog = s.prog) (hl : t.plen = s.plen) (a : Nat) :
    t.memRead a = s.memRead a := by
  simp [memRead, hp, hl]

theorem progFrom_congr {s t : State} (hp : t.prog = s.prog) (hl : t.plen = s.plen) (a : Nat) :
    t.progFrom a = s.progFrom a := by
  simp [progFrom, hp, hl]

theorem memRead_eq_some {a : Nat} {b : Byte} : s.memRead a = some b ↔ a < s.plen ∧ s.prog.read a = b := by
  by_cases h : a < s.plen <;> simp [memRead, h]

theorem memRead_isSome_of_lt {a : Nat} (h : a < s.plen) : s.memRead a = some (s.prog.read a) := by
  simp [memRead, h]

@[simp] theorem progFrom_length (a : Nat) : (s.progFrom a).length = s.plen - a := by simp [progFrom]

/-- The bytes from a position inside the program are its byte and the bytes from the next position. -/
theorem progFrom_cons {a : Nat} (h : a < s.plen) : s.progFrom a = s.prog.read a :: s.progFrom (a + 1) := by
  unfold progFrom
  obtain ⟨n, hn⟩ : ∃ n, s.plen - a = n + 1 := ⟨s.plen - a - 1, by omega⟩
  have hm : s.plen - (a + 1) = n := by omega
  rw [hn, hm, List.range'_succ, List.map_cons]

theorem progFrom_eq_nil {a : Nat} (h : s.plen ≤ a) : s.progFrom a = [] := by
  have : s.plen - a = 0 := by omega
  simp [progFrom, this]

/-- The byte at offset `k` after `a` is the byte at position `a + k`. -/
theorem progFrom_getElem? (a k : Nat) : (s.progFrom a)[k]? = s.memRead (a + k) := by
  unfold progFrom memRead
  by_cases h : a + k < s.plen
  · have : k < s.plen - a := by omega
    simp [h, this]
  · have : s.plen - a ≤ k := by omega
    simp [h, this]

end Sys2Proof.Machine.State
end

