-- ==== Sys2Proof/Laws/Ops.lean ====
section
/-! SUPPORT. One lemma per shared operation that says once everything it can do; callers cite it and do not unfold the
operation. -/

namespace Sys2Proof.Machine

@[simp] theorem ok_bind {α β : Type} (a : α) (f : α → Except FaultKind β) : (Except.ok a >>= f) = f a := rfl
@[simp] theorem error_bind {α β : Type} (k : FaultKind) (f : α → Except FaultKind β) :
    ((Except.error k : Except FaultKind α) >>= f) = .error k := rfl
@[simp] theorem pure_eq_ok {α : Type} (a : α) : (pure a : Except FaultKind α) = .ok a := rfl

/-- A bind that succeeds: both halves did. -/
theorem bind_eq_ok {α β : Type} {x : Except FaultKind α} {f : α → Except FaultKind β} {b : β} :
    (x >>= f) = .ok b ↔ ∃ a, x = .ok a ∧ f a = .ok b := by
  cases x <;> simp

/-! ### Capacities -/

theorem Capacity.isFull_iff {c : Capacity} {n : Nat} : c.isFull n = true ↔ c = some n := by
  cases c with
  | none => simp [Capacity.isFull]
  | some k => simpa [Capacity.isFull] using eq_comm

theorem Capacity.isFull_false_iff {c : Capacity} {n : Nat} : c.isFull n = false ↔ c ≠ some n := by
  rw [← Bool.not_eq_true, Capacity.isFull_iff]

theorem Capacity.holds_iff {c : Capacity} {n : Nat} : c.holds n = true ↔ ∀ k, c = some k → n ≤ k := by
  cases c <;> simp [Capacity.holds]

theorem Capacity.holds_mono {c : Capacity} {m n : Nat} (h : c.holds n = true) (hmn : m ≤ n) : c.holds m = true :=
  Capacity.holds_iff.mpr fun k hk => le_trans hmn (Capacity.holds_iff.mp h k hk)

/-- Below capacity and not full leaves room for one more. -/
theorem Capacity.holds_succ {c : Capacity} {n : Nat} (h : c.holds n = true) (hf : c.isFull n = false) :
    c.holds (n + 1) = true := by
  refine Capacity.holds_iff.mpr fun k hk => ?_
  have h1 := Capacity.holds_iff.mp h k hk
  have h2 : c ≠ some n := Capacity.isFull_false_iff.mp hf
  have : k ≠ n := fun e => h2 (e ▸ hk)
  omega

/-- A stack that held more entries is not full with fewer. -/
theorem Capacity.not_full_of_lt {c : Capacity} {m n : Nat} (h : c.holds n = true) (hmn : m < n) :
    c.isFull m = false := by
  refine Capacity.isFull_false_iff.mpr fun e => ?_
  have := Capacity.holds_iff.mp h m e
  omega

namespace State

variable {s t : State}

/-! ### Taking a fault -/

theorem raise_of_memRead {kind : FaultKind} {aux : Nat} {ch : Byte} (h : s.memRead s.pc = some ch) :
    s.raise kind aux = .next { s with run := kind.status, fault := some ⟨kind, s.pc, ch, aux⟩ } := by
  simp [raise, h]

/-- A fault that is taken writes `run` and `fault` and nothing else (60_exceptions.md R152). -/
theorem raise_next {kind : FaultKind} {aux : Nat} (h : s.raise kind aux = .next t) :
    ∃ ch, s.memRead s.pc = some ch ∧ t = { s with run := kind.status, fault := some ⟨kind, s.pc, ch, aux⟩ } := by
  unfold raise at h
  split at h
  · cases h
  · next ch hch => cases h; exact ⟨ch, hch, rfl⟩

@[simp] theorem settle_ok : s.settle (.ok t) = .next t := rfl
@[simp] theorem settle_error {k : FaultKind} : s.settle (.error k) = s.raise k s.pc := rfl

/-- A settled instruction that answers a next state either committed its copy or took a fault. -/
theorem settle_next {r : Except FaultKind State} (h : s.settle r = .next t) :
    r = .ok t ∨ ∃ k ch, r = .error k ∧ s.memRead s.pc = some ch ∧
      t = { s with run := k.status, fault := some ⟨k, s.pc, ch, s.pc⟩ } := by
  cases r with
  | ok u => cases h; exact .inl rfl
  | error k =>
    obtain ⟨ch, hch, ht⟩ := raise_next (s := s) (kind := k) (aux := s.pc) h
    exact .inr ⟨k, ch, rfl, hch, ht⟩

/-! ### The data stack -/

theorem push_of_room {v : Byte} (h : s.cfg.dcap.isFull s.cur.length = false) : s.push v = .ok (s.setCur (s.cur ++ [v])) := by
  simp [push, h]

theorem push_of_full {v : Byte} (h : s.cfg.dcap.isFull s.cur.length = true) : s.push v = .error .alloc := by
  simp [push, h]

theorem push_ok {v : Byte} (h : s.push v = .ok t) :
    s.cfg.dcap.isFull s.cur.length = false ∧ t = s.setCur (s.cur ++ [v]) := by
  unfold push at h
  split at h
  · cases h
  · next hf => cases h; exact ⟨by simpa using hf, rfl⟩

theorem push_error {v : Byte} {k : FaultKind} (h : s.push v = .error k) : k = .alloc := by
  unfold push at h
  split at h
  · cases h; rfl
  · cases h

theorem pop_concat {l : List Byte} {v : Byte} (h : s.cur = l ++ [v]) : s.pop = .ok (v, s.setCur l) := by
  simp [pop, h]

theorem pop_nil (h : s.cur = []) : s.pop = .error .stackEmpty := by simp [pop, h]

theorem pop_ok {v : Byte} (h : s.pop = .ok (v, t)) : ∃ l, s.cur = l ++ [v] ∧ t = s.setCur l := by
  rcases List.eq_nil_or_concat' s.cur with hc | ⟨l, w, hc⟩
  · simp [pop_nil hc] at h
  · simp [pop_concat hc] at h
    obtain ⟨rfl, rfl⟩ := h
    exact ⟨l, hc, rfl⟩

theorem pop_error {k : FaultKind} (h : s.pop = .error k) : k = .stackEmpty := by
  rcases List.eq_nil_or_concat' s.cur with hc | ⟨l, w, hc⟩
  · simp [pop_nil hc] at h; exact h.symm
  · simp [pop_concat hc] at h

theorem peek_concat {l : List Byte} {v : Byte} (h : s.cur = l ++ [v]) : s.peek = .ok v := by simp [peek, h]

theorem peek_nil (h : s.cur = []) : s.peek = .error .stackEmpty := by simp [peek, h]

theorem peek_ok {v : Byte} (h : s.peek = .ok v) : ∃ l, s.cur = l ++ [v] := by
  rcases List.eq_nil_or_concat' s.cur with hc | ⟨l, w, hc⟩
  · simp [peek_nil hc] at h
  · simp [peek_concat hc] at h
    exact ⟨l, by simp [hc, h]⟩

theorem peek_error {k : FaultKind} (h : s.peek = .error k) : k = .stackEmpty := by
  rcases List.eq_nil_or_concat' s.cur with hc | ⟨l, w, hc⟩
  · simp [peek_nil hc] at h; exact h.symm
  · simp [peek_concat hc] at h

theorem popTwo_concat {l : List Byte} {a b : Byte} (h : s.cur = l ++ [a, b]) :
    s.popTwo = .ok (a, b, s.setCur l) := by
  have h1 : s.cur = (l ++ [a]) ++ [b] := by simp [h]
  simp [popTwo, pop_concat h1, pop_concat (s := s.setCur (l ++ [a])) (l := l) (v := a) (by simp)]

theorem popTwo_short (h : s.cur.length < 2) : s.popTwo = .error .stackEmpty := by
  rcases List.eq_nil_or_concat' s.cur with hc | ⟨l, w, hc⟩
  · simp [popTwo, pop_nil hc]
  · have hl : l = [] := by simpa [hc] using h
    subst hl
    simp [popTwo, pop_concat hc, pop_nil (s := s.setCur []) (by simp)]

theorem popTwo_ok {a b : Byte} (h : s.popTwo = .ok (a, b, t)) : ∃ l, s.cur = l ++ [a, b] ∧ t = s.setCur l := by
  obtain ⟨⟨b', s1⟩, h1, h⟩ := bind_eq_ok.mp h
  obtain ⟨⟨a', s2⟩, h2, h⟩ := bind_eq_ok.mp h
  simp at h
  obtain ⟨rfl, rfl, rfl⟩ := h
  obtain ⟨l1, hl1, rfl⟩ := pop_ok h1
  obtain ⟨l, hl, rfl⟩ := pop_ok h2
  rw [cur_setCur] at hl
  exact ⟨l, by simp [hl1, hl], by simp⟩

theorem popTwo_error {k : FaultKind} (h : s.popTwo = .error k) : k = .stackEmpty := by
  unfold popTwo at h
  cases h1 : s.pop with
  | error k1 => rw [h1] at h; simp at h; subst h; exact pop_error h1
  | ok p =>
    rw [h1] at h; simp at h
    cases h2 : p.2.pop with
    | error k2 => rw [h2] at h; simp at h; subst h; exact pop_error h2
    | ok q => rw [h2] at h; simp at h

theorem pushBody_of_room {body : List Byte} (h : s.cfg.dcap.holds (s.cur.length + body.length) = true) :
    s.pushBody body = .ok (s.setCur (s.cur ++ body.reverse)) := by
  simp [pushBody, h]

theorem pushBody_of_full {body : List Byte} (h : s.cfg.dcap.holds (s.cur.length + body.length) = false) :
    s.pushBody body = .error .alloc := by
  simp [pushBody, h]

theorem pushBody_ok {body : List Byte} (h : s.pushBody body = .ok t) :
    s.cfg.dcap.holds (s.cur.length + body.length) = true ∧ t = s.setCur (s.cur ++ body.reverse) := by
  unfold pushBody at h
  split at h
  · next hr => cases h; exact ⟨hr, rfl⟩
  · cases h

/-! ### The call stacks -/

theorem cpush_of_room {c : CallStack} {p : Nat} (h : s.cfg.ccap.isFull (s.calls c).length = false) :
    s.cpush c p = .ok (s.setCalls c (s.calls c ++ [p])) := by
  simp [cpush, h]

theorem cpush_of_full {c : CallStack} {p : Nat} (h : s.cfg.ccap.isFull (s.calls c).length = true) :
    s.cpush c p = .error .alloc := by
  simp [cpush, h]

theorem cpush_ok {c : CallStack} {p : Nat} (h : s.cpush c p = .ok t) :
    s.cfg.ccap.isFull (s.calls c).length = false ∧ t = s.setCalls c (s.calls c ++ [p]) := by
  unfold cpush at h
  split at h
  · cases h
  · next hf => cases h; exact ⟨by simpa using hf, rfl⟩

theorem cpop_concat {c : CallStack} {l : List Nat} {p : Nat} (h : s.calls c = l ++ [p]) :
    s.cpop c = .ok (p, s.setCalls c l) := by
  simp [cpop, h]

theorem cpop_nil {c : CallStack} (h : s.calls c = []) : s.cpop c = .error .unmatchedClose := by simp [cpop, h]

theorem cpop_ok {c : CallStack} {p : Nat} (h : s.cpop c = .ok (p, t)) :
    ∃ l, s.calls c = l ++ [p] ∧ t = s.setCalls c l := by
  rcases List.eq_nil_or_concat' (s.calls c) with hc | ⟨l, w, hc⟩
  · simp [cpop_nil hc] at h
  · simp [cpop_concat hc] at h
    obtain ⟨rfl, rfl⟩ := h
    exact ⟨l, hc, rfl⟩

/-! ### The shared shapes of instructions -/

/-- `BINOP` (41_arithmetic_logic.md R90) on two entries, where the operation gives a value. There is room for the
result because two entries were there. -/
theorem binop_concat {op : Byte → Byte → Except FaultKind Byte} {l : List Byte} {a b r : Byte}
    (hc : s.cur = l ++ [a, b]) (hop : op a b = .ok r) (hcap : s.cfg.dcap.holds s.cur.length = true) :
    s.binop op = .ok ((s.setCur (l ++ [r])).advance) := by
  have hroom : (s.setCur l).cfg.dcap.isFull (s.setCur l).cur.length = false := by
    simpa using Capacity.not_full_of_lt hcap (m := l.length) (by simp [hc])
  simp [binop, popTwo_concat hc, hop, push_of_room hroom]

theorem binop_short {op : Byte → Byte → Except FaultKind Byte} (h : s.cur.length < 2) :
    s.binop op = .error .stackEmpty := by
  simp [binop, popTwo_short h]

theorem binop_opError {op : Byte → Byte → Except FaultKind Byte} {l : List Byte} {a b : Byte} {k : FaultKind}
    (hc : s.cur = l ++ [a, b]) (hop : op a b = .error k) : s.binop op = .error k := by
  simp [binop, popTwo_concat hc, hop]

/-- Whatever the operation, a `BINOP` that completes replaced two entries by one. -/
theorem binop_ok {op : Byte → Byte → Except FaultKind Byte} (h : s.binop op = .ok t) :
    ∃ l a b r, s.cur = l ++ [a, b] ∧ op a b = .ok r ∧ t = (s.setCur (l ++ [r])).advance := by
  obtain ⟨⟨a, b, s2⟩, h1, h⟩ := bind_eq_ok.mp h
  obtain ⟨r, h2, h⟩ := bind_eq_ok.mp h
  obtain ⟨t', h3, h⟩ := bind_eq_ok.mp h
  simp at h
  obtain ⟨l, hl, rfl⟩ := popTwo_ok h1
  obtain ⟨_, rfl⟩ := push_ok h3
  exact ⟨l, a, b, r, hl, h2, by simp [← h]⟩

theorem skipBody_found {o c : Byte} {m : Nat} (h : s.scan o c (s.pc + 1) = some m) :
    s.skipBody o c = .ok (s.setPc (m + 1)) := by
  simp [skipBody, h]

theorem skipBody_notFound {o c : Byte} (h : s.scan o c (s.pc + 1) = none) :
    s.skipBody o c = .error .unmatchedOpen := by
  simp [skipBody, h]

theorem skipBody_ok {o c : Byte} (h : s.skipBody o c = .ok t) :
    ∃ m, s.scan o c (s.pc + 1) = some m ∧ t = s.setPc (m + 1) := by
  unfold skipBody at h
  split at h
  · next m hm => cases h; exact ⟨m, hm, rfl⟩
  · cases h

theorem enterBody_ok {c : CallStack} (h : s.enterBody c = .ok t) :
    s.cfg.ccap.isFull (s.calls c).length = false ∧ t = (s.setCalls c (s.calls c ++ [s.pc])).advance := by
  obtain ⟨u, h1, h⟩ := bind_eq_ok.mp h
  obtain ⟨hf, rfl⟩ := cpush_ok h1
  simp at h
  exact ⟨hf, h.symm⟩

theorem returnToOpener_ok {c : CallStack} (h : s.returnToOpener c = .ok t) :
    ∃ l p, s.calls c = l ++ [p] ∧ t = (s.setCalls c l).setPc p := by
  obtain ⟨⟨p, u⟩, h1, h⟩ := bind_eq_ok.mp h
  obtain ⟨l, hl, rfl⟩ := cpop_ok h1
  simp at h
  exact ⟨l, p, hl, h.symm⟩

/-! ### The conditions of the openers -/

theorem topIsZero_concat {l : List Byte} {v : Byte} (h : s.cur = l ++ [v]) : s.topIsZero = .ok (v == 0#8) := by
  simp [topIsZero, peek_concat h]

theorem topIsZero_nil (h : s.cur = []) : s.topIsZero = .error .stackEmpty := by
  simp [topIsZero, peek_nil h]

theorem isEmpty_eq_true_iff : s.isEmpty = true ↔ s.cur = [] := by simp [isEmpty]

end State

end Sys2Proof.Machine
end

