-- ==== Sys2Proof/Laws/Exec.lean ====
section
/-! SUPPORT. What an instruction, and a step, can do when it answers a next state: said once, and cited by every
statement about all instructions. -/

namespace Sys2Proof.Machine

open State

/-- The instructions whose only effect, when they complete, is on the current stack and `pc`. -/
def onlyStack : Instr → Bool
  | .pushd _ | .pushl _ | .add | .sub | .mul | .div | .mod | .and | .or | .xor | .drop | .dup | .swap | .load
  | .str _ | .num _ => true
  | .next | .prev | .outb | .inb | .outd | .loopnz | .endnz | .loopne | .endne | .store | .nop _ => false

/-- What an instruction did when it answered `t`. -/
inductive Effect (i : Instr) (s : State) : State → Prop where
  /-- A fault was taken: `run` and `fault` are written, nothing else (60_exceptions.md R152). -/
  | faulted (kind : FaultKind) (ch : Byte) (hch : s.memRead s.pc = some ch) (hk : kind ≠ .numericBadChar) :
      Effect i s { s with run := kind.status, fault := some ⟨kind, s.pc, ch, s.pc⟩ }
  /-- The one fault whose record points elsewhere (60_exceptions.md R153). -/
  | badChar (k : Nat) (ch : Byte) (hi : i = .num (.badChar k)) (hch : s.memRead s.pc = some ch) :
      Effect i s { s with run := .faultErr, fault := some ⟨.numericBadChar, s.pc, ch, s.pc + 1 + k⟩ }
  /-- The one fault after an effect: the answer is consumed (43_io.md R112). -/
  | inputLost (r : InputAnswer) (rest : List InputAnswer) (ch : Byte) (hi : i = .inb) (hin : s.input = r :: rest)
      (hch : s.memRead s.pc = some ch) :
      Effect i s { s.dropAnswer rest with run := .faultAlloc, fault := some ⟨.alloc, s.pc, ch, s.pc⟩ }
  /-- The current stack changed, within its capacity; control went past the instruction. -/
  | stack (l : List Byte) (n : Nat) (hi : onlyStack i = true) (hn : i.length = some n)
      (hcap : s.cfg.dcap.holds s.cur.length = true → s.cfg.dcap.holds l.length = true) :
      Effect i s ((s.setCur l).setPc (s.pc + n))
  /-- The selector changed, or nothing did. -/
  | selector (x : Byte) (hi : (∃ c, i = .nop c ∧ x = s.sel) ∨ (i = .next ∧ x = s.sel + 1#8) ∨ (i = .prev ∧ x = s.sel - 1#8)) :
      Effect i s (State.advance { s with sel := x })
  /-- A value was popped and bytes were emitted. -/
  | output (l : List Byte) (v : Byte) (bs : List Byte) (hc : s.cur = l ++ [v])
      (hi : (i = .outb ∧ bs = [v]) ∨ (i = .outd ∧ bs = decimalText v)) :
      Effect i s ((s.setCur l).emit bs).advance
  /-- An answer was consumed and its byte pushed. -/
  | input (r : InputAnswer) (rest : List InputAnswer) (hi : i = .inb) (hin : s.input = r :: rest)
      (hroom : s.cfg.dcap.isFull s.cur.length = false) :
      Effect i s ((s.dropAnswer rest).setCur (s.cur ++ [s.answerByte r])).advance
  /-- A register was stored to. -/
  | stored (l : List Byte) (x v : Byte) (hi : i = .store) (hc : s.cur = l ++ [x, v]) :
      Effect i s ((s.setCur l).writeReg x v).advance
  /-- A body was skipped. -/
  | skipped (m : Nat) (hi : (i = .loopnz ∧ s.scan 0x5B#8 0x5D#8 (s.pc + 1) = some m) ∨
      (i = .loopne ∧ s.scan 0x7B#8 0x7D#8 (s.pc + 1) = some m)) :
      Effect i s (s.setPc (m + 1))
  /-- A body was entered. -/
  | entered (c : CallStack) (hi : (i = .loopnz ∧ c = .square) ∨ (i = .loopne ∧ c = .curly))
      (hroom : s.cfg.ccap.isFull (s.calls c).length = false) :
      Effect i s (s.setCalls c (s.calls c ++ [s.pc])).advance
  /-- A closer returned. -/
  | returned (c : CallStack) (l : List Nat) (p : Nat) (hi : (i = .endnz ∧ c = .square) ∨ (i = .endne ∧ c = .curly))
      (hc : s.calls c = l ++ [p]) :
      Effect i s ((s.setCalls c l).setPc p)

/-- A settled body: its copy had one of the shapes above, or an ordinary fault was taken. -/
theorem Effect.of_settle {i : Instr} {s t : State} {r : Except FaultKind State} (h : s.settle r = .next t)
    (hk : r ≠ .error .numericBadChar) (hok : r = .ok t → Effect i s t) : Effect i s t := by
  rcases settle_next h with h | ⟨k, ch, hr, hch, rfl⟩
  · exact hok h
  · exact .faulted k ch hch fun e => hk (e ▸ hr)

/-! No body of an instruction raises `NUMERIC_BAD_CHAR`: `NUM` takes that fault itself. -/

theorem bind_ne_error {α β : Type} {x : Except FaultKind α} {f : α → Except FaultKind β} {k : FaultKind}
    (hx : x ≠ .error k) (hf : ∀ a, f a ≠ .error k) : (x >>= f) ≠ .error k := by
  cases x with
  | ok a => simpa using hf a
  | error j => simpa using hx

theorem ok_ne_error {α : Type} (a : α) (k : FaultKind) : (pure a : Except FaultKind α) ≠ .error k := by simp

theorem pop_ne (s : State) : s.pop ≠ .error .numericBadChar := fun h => by have := pop_error h; simp at this
theorem peek_ne (s : State) : s.peek ≠ .error .numericBadChar := fun h => by have := peek_error h; simp at this
theorem popTwo_ne (s : State) : s.popTwo ≠ .error .numericBadChar := fun h => by have := popTwo_error h; simp at this
theorem push_ne (s : State) (v : Byte) : s.push v ≠ .error .numericBadChar := fun h => by
  have := push_error h; simp at this

theorem pushBody_ne (s : State) (body : List Byte) : s.pushBody body ≠ .error .numericBadChar := by
  unfold pushBody; split <;> simp

theorem cpush_ne (s : State) (c : CallStack) (p : Nat) : s.cpush c p ≠ .error .numericBadChar := by
  unfold cpush; split <;> simp

theorem cpop_ne (s : State) (c : CallStack) : s.cpop c ≠ .error .numericBadChar := by
  unfold cpop; split <;> simp

theorem skipBody_ne (s : State) (o c : Byte) : s.skipBody o c ≠ .error .numericBadChar := by
  unfold skipBody; split <;> simp

theorem enterBody_ne (s : State) (c : CallStack) : s.enterBody c ≠ .error .numericBadChar :=
  bind_ne_error (cpush_ne s c s.pc) fun _ => ok_ne_error _ _

theorem returnToOpener_ne (s : State) (c : CallStack) : s.returnToOpener c ≠ .error .numericBadChar :=
  bind_ne_error (cpop_ne s c) fun _ => ok_ne_error _ _

theorem guardZero_ne (op : Byte → Byte → Byte) (a b : Byte) : guardZero op a b ≠ .error .numericBadChar := by
  unfold guardZero; split <;> simp

/-! ### The shapes of bodies -/

/-- A body that is a `BINOP` (41_arithmetic_logic.md R90). -/
theorem Effect.of_binop {i : Instr} {s t : State} {op : Byte → Byte → Except FaultKind Byte} (hi : onlyStack i = true) (hn : i.length = some 1)
    (hop : ∀ a b, op a b ≠ .error .numericBadChar) (h : s.settle (s.binop op) = .next t) : Effect i s t := by
  refine .of_settle h ?_ fun hb => ?_
  · exact bind_ne_error (popTwo_ne s) fun p => bind_ne_error (hop _ _) fun r => bind_ne_error (push_ne _ r) fun _ =>
      ok_ne_error _ _
  · obtain ⟨l, a, b, r, hc, -, rfl⟩ := binop_ok hb
    exact .stack (l ++ [r]) 1 hi hn fun hcap => Capacity.holds_mono hcap (by simp [hc])

/-- A body that pushes one value and goes on `n` positions further. -/
theorem Effect.of_push {i : Instr} {s t : State} {v : Byte} {n : Nat} (hi : onlyStack i = true)
    (hn : i.length = some n)
    (h : s.settle (s.push v >>= fun u => pure (u.setPc (s.pc + n))) = .next t) : Effect i s t := by
  refine .of_settle h (bind_ne_error (push_ne s v) fun _ => ok_ne_error _ _) fun hb => ?_
  obtain ⟨u, h1, h2⟩ := bind_eq_ok.mp hb
  obtain ⟨hf, rfl⟩ := push_ok h1
  simp at h2
  subst h2
  exact .stack (s.cur ++ [v]) n hi hn fun hcap => by simpa using Capacity.holds_succ hcap hf

theorem Effect.of_raise {i : Instr} {s t : State} {k : FaultKind} (hk : k ≠ .numericBadChar)
    (h : s.raise k s.pc = .next t) : Effect i s t := by
  obtain ⟨ch, hch, rfl⟩ := raise_next h
  exact .faulted k ch hch hk

theorem setCur_advance (s : State) (l : List Byte) : (s.setCur l).advance = (s.setCur l).setPc (s.pc + 1) := rfl

theorem Effect.of_pushImmediate {i : Instr} {s t : State} {v : Byte} (hi : onlyStack i = true) (hn : i.length = some 1)
    (h : s.settle (s.pushImmediate v) = .next t) : Effect i s t := by
  refine .of_settle h (bind_ne_error (push_ne s v) fun _ => ok_ne_error _ _) fun hb => ?_
  obtain ⟨u, h1, h2⟩ := bind_eq_ok.mp hb
  obtain ⟨hf, rfl⟩ := push_ok h1
  simp only [pure_eq_ok, Except.ok.injEq] at h2
  subst h2
  rw [setCur_advance]
  exact .stack (s.cur ++ [v]) 1 hi hn fun hcap => by simpa using Capacity.holds_succ hcap hf

/-- What every instruction can do. -/
theorem exec_effect {i : Instr} {s t : State} (h : exec i s = .next t) : Effect i s t := by
  cases i with
  | pushd d => exact .of_pushImmediate rfl rfl h
  | pushl c => exact .of_pushImmediate rfl rfl h
  | add => exact .of_binop rfl rfl (by simp) h
  | sub => exact .of_binop rfl rfl (by simp) h
  | mul => exact .of_binop rfl rfl (by simp) h
  | div => exact .of_binop rfl rfl (guardZero_ne _) h
  | mod => exact .of_binop rfl rfl (guardZero_ne _) h
  | and => exact .of_binop rfl rfl (by simp) h
  | or => exact .of_binop rfl rfl (by simp) h
  | xor => exact .of_binop rfl rfl (by simp) h
  | drop =>
    refine .of_settle h (bind_ne_error (pop_ne s) fun _ => ok_ne_error _ _) fun hb => ?_
    obtain ⟨⟨v, u⟩, h1, h2⟩ := bind_eq_ok.mp hb
    obtain ⟨l, hl, rfl⟩ := pop_ok h1
    simp only [pure_eq_ok, Except.ok.injEq] at h2
    subst h2
    rw [setCur_advance]
    exact .stack l 1 rfl rfl fun hcap => Capacity.holds_mono hcap (by simp [hl])
  | dup =>
    refine .of_settle h (bind_ne_error (peek_ne s) fun v => bind_ne_error (push_ne s v) fun _ => ok_ne_error _ _)
      fun hb => ?_
    obtain ⟨v, -, h2⟩ := bind_eq_ok.mp hb
    obtain ⟨u, h2, h3⟩ := bind_eq_ok.mp h2
    obtain ⟨hf, rfl⟩ := push_ok h2
    simp only [pure_eq_ok, Except.ok.injEq] at h3
    subst h3
    rw [setCur_advance]
    exact .stack (s.cur ++ [v]) 1 rfl rfl fun hcap => by simpa using Capacity.holds_succ hcap hf
  | swap =>
    refine .of_settle h (bind_ne_error (popTwo_ne s) fun p => bind_ne_error (push_ne _ _) fun q =>
      bind_ne_error (push_ne _ _) fun _ => ok_ne_error _ _) fun hb => ?_
    obtain ⟨⟨a, b, u⟩, h1, h2⟩ := bind_eq_ok.mp hb
    obtain ⟨u1, h2, h3⟩ := bind_eq_ok.mp h2
    obtain ⟨u2, h3, h4⟩ := bind_eq_ok.mp h3
    obtain ⟨l, hl, rfl⟩ := popTwo_ok h1
    obtain ⟨-, rfl⟩ := push_ok h2
    obtain ⟨-, rfl⟩ := push_ok h3
    simp only [pure_eq_ok, Except.ok.injEq] at h4
    subst h4
    simp only [cur_setCur, setCur_setCur, setCur_advance]
    exact .stack (l ++ [b] ++ [a]) 1 rfl rfl fun hcap => Capacity.holds_mono hcap (by simp [hl])
  | next => cases h; exact .selector _ (.inr (.inl ⟨rfl, rfl⟩))
  | prev => cases h; exact .selector _ (.inr (.inr ⟨rfl, rfl⟩))
  | outb =>
    refine .of_settle h (bind_ne_error (pop_ne s) fun _ => ok_ne_error _ _) fun hb => ?_
    obtain ⟨⟨v, u⟩, h1, h2⟩ := bind_eq_ok.mp hb
    obtain ⟨l, hl, rfl⟩ := pop_ok h1
    simp only [pure_eq_ok, Except.ok.injEq] at h2
    subst h2
    exact .output l v [v] hl (.inl ⟨rfl, rfl⟩)
  | outd =>
    refine .of_settle h (bind_ne_error (pop_ne s) fun _ => ok_ne_error _ _) fun hb => ?_
    obtain ⟨⟨v, u⟩, h1, h2⟩ := bind_eq_ok.mp hb
    obtain ⟨l, hl, rfl⟩ := pop_ok h1
    simp only [pure_eq_ok, Except.ok.injEq] at h2
    subst h2
    exact .output l v (decimalText v) hl (.inr ⟨rfl, rfl⟩)
  | inb =>
    simp only [exec, execInb] at h
    split at h
    · cases h
    · next r rest hin =>
      rcases settle_next h with h | ⟨k, ch, hr, hch, rfl⟩
      · obtain ⟨u, h1, h2⟩ := bind_eq_ok.mp h
        obtain ⟨hf, rfl⟩ := push_ok h1
        simp only [pure_eq_ok, Except.ok.injEq] at h2
        subst h2
        exact .input r rest rfl hin hf
      · have hk : k = .alloc := by
          cases h1 : (s.dropAnswer rest).push (s.answerByte r) with
          | ok u => rw [h1] at hr; simp at hr
          | error j => rw [h1] at hr; simp at hr; subst hr; exact push_error h1
        subst hk
        exact .inputLost r rest ch rfl hin hch
  | loopnz =>
    refine .of_settle h (bind_ne_error ?_ fun b => ?_) fun hb => ?_
    · exact bind_ne_error (peek_ne s) fun _ => ok_ne_error _ _
    · cases b
      · exact enterBody_ne s .square
      · exact skipBody_ne s _ _
    · obtain ⟨b, -, h2⟩ := bind_eq_ok.mp hb
      cases b with
      | true =>
        obtain ⟨m, hm, rfl⟩ := skipBody_ok h2
        exact .skipped m (.inl ⟨rfl, hm⟩)
      | false =>
        obtain ⟨hf, rfl⟩ := enterBody_ok h2
        exact .entered .square (.inl ⟨rfl, rfl⟩) hf
  | endnz =>
    refine .of_settle h (returnToOpener_ne s .square) fun hb => ?_
    obtain ⟨l, p, hl, rfl⟩ := returnToOpener_ok hb
    exact .returned .square l p (.inl ⟨rfl, rfl⟩) hl
  | loopne =>
    refine .of_settle h ?_ fun hb => ?_
    · split
      · exact skipBody_ne s _ _
      · exact enterBody_ne s .curly
    · split at hb
      · obtain ⟨m, hm, rfl⟩ := skipBody_ok hb
        exact .skipped m (.inr ⟨rfl, hm⟩)
      · obtain ⟨hf, rfl⟩ := enterBody_ok hb
        exact .entered .curly (.inr ⟨rfl, rfl⟩) hf
  | endne =>
    refine .of_settle h (returnToOpener_ne s .curly) fun hb => ?_
    obtain ⟨l, p, hl, rfl⟩ := returnToOpener_ok hb
    exact .returned .curly l p (.inr ⟨rfl, rfl⟩) hl
  | store =>
    refine .of_settle h (bind_ne_error (popTwo_ne s) fun _ => ok_ne_error _ _) fun hb => ?_
    obtain ⟨⟨x, v, u⟩, h1, h2⟩ := bind_eq_ok.mp hb
    obtain ⟨l, hl, rfl⟩ := popTwo_ok h1
    simp only [pure_eq_ok, Except.ok.injEq] at h2
    subst h2
    exact .stored l x v rfl hl
  | load =>
    refine .of_settle h (bind_ne_error (pop_ne s) fun p => bind_ne_error (push_ne _ _) fun _ => ok_ne_error _ _)
      fun hb => ?_
    obtain ⟨⟨x, u⟩, h1, h2⟩ := bind_eq_ok.mp hb
    obtain ⟨u2, h2, h3⟩ := bind_eq_ok.mp h2
    obtain ⟨l, hl, rfl⟩ := pop_ok h1
    obtain ⟨-, rfl⟩ := push_ok h2
    simp only [pure_eq_ok, Except.ok.injEq] at h3
    subst h3
    simp only [cur_setCur, setCur_setCur, setCur_advance]
    exact .stack _ 1 rfl rfl fun hcap => Capacity.holds_mono hcap (by simp [hl])
  | str lit =>
    cases lit with
    | unclosed => exact .of_raise (by simp) h
    | closed body =>
      refine .of_settle h (bind_ne_error (pushBody_ne s body) fun _ => ok_ne_error _ _) fun hb => ?_
      obtain ⟨u, h1, h2⟩ := bind_eq_ok.mp hb
      obtain ⟨hr, rfl⟩ := pushBody_ok h1
      simp only [pure_eq_ok, Except.ok.injEq] at h2
      subst h2
      rw [show s.pc + 1 + body.length + 1 = s.pc + (body.length + 2) by omega]
      exact .stack _ _ rfl rfl fun _ => by simpa using hr
  | num lit =>
    cases lit with
    | unclosed => exact .of_raise (by simp) h
    | badChar k =>
      obtain ⟨ch, hch, rfl⟩ := raise_next h
      exact .badChar k ch rfl hch
    | closed digits =>
      refine .of_push (n := digits.length + 2) (v := numValue digits) rfl rfl ?_
      rw [show s.pc + (digits.length + 2) = s.pc + 1 + digits.length + 1 by omega]
      exact h
  | nop c => cases h; exact .selector _ (.inl ⟨c, rfl, rfl⟩)

/-! ### The step -/

/-- A running machine, inside a program that fits, runs the instruction it fetches (30_encoding.md R69). -/
theorem step_of_fetch {s : State} {i : Instr} (hr : s.run = .running) (hf : s.cfg.fits s.plen = true)
    (hpc : s.pc ≠ s.plen) (hi : s.fetchInstr = .ok i) : step s = exec i s := by
  simp [step, beforeFetch, hr, hf, hpc, hi]

/-- What a step did when it answered a next state: the halt, or an instruction at `pc`. -/
theorem step_next {s t : State} (h : step s = .next t) : s.run = .running ∧ s.cfg.fits s.plen = true ∧
    ((s.pc = s.plen ∧ t = s.halt) ∨ (s.pc < s.plen ∧ ∃ i, s.fetchInstr = .ok i ∧ Effect i s t)) := by
  unfold step at h
  split at h
  · next o ho =>
    subst h
    unfold beforeFetch at ho
    split at ho
    · cases ho
    · next hr =>
      split at ho
      · cases ho
      · next hf =>
        split at ho
        · next hp => cases ho; exact ⟨by simpa using hr, by simpa using hf, .inl ⟨hp, rfl⟩⟩
        · cases ho
  · next ho =>
    unfold beforeFetch at ho
    split at ho
    · cases ho
    · next hr =>
      split at ho
      · cases ho
      · next hf =>
        split at ho
        · cases ho
        · next hp =>
          split at h
          · next i hi =>
            refine ⟨by simpa using hr, by simpa using hf, .inr ⟨?_, i, hi, exec_effect h⟩⟩
            by_contra hlt
            have hnil : s.progFrom s.pc = [] := progFrom_eq_nil s (by omega)
            simp [fetchInstr, hnil, decode] at hi
          · next e he => cases e; cases h

end Sys2Proof.Machine
end

