-- ==== Sys2Proof/Laws/Memory.lean ====
section
/-! SUPPORT. The program space: reading after writing, and the canonical form, which every operation keeps. -/

namespace Sys2Proof.Machine.Memory

@[simp] theorem read_nil (a : Nat) : read [] a = unlisted := rfl

/-- A position below every listed one is unlisted. -/
theorem read_of_lt {m : Memory} {a : Nat} (h : ∀ c ∈ m, a < c.1) : read m a = unlisted := by
  induction m with
  | nil => rfl
  | cons c m ih =>
    obtain ⟨x, v⟩ := c
    have hx : x ≠ a := by have := h (x, v) (by simp); simp at this; omega
    simp only [read, hx, if_false]
    exact ih fun c hc => h c (by simp [hc])

/-- Reading after writing: the byte written there, every other position as before. -/
theorem read_write {m : Memory} (hm : m.Pairwise (fun c d => c.1 < d.1)) (a a' : Nat) (b : Byte) :
    read (write m a b) a' = if a' = a then b else read m a' := by
  induction m with
  | nil =>
    unfold write
    split
    · next h => subst h; simp
    · simp [read, eq_comm]
  | cons c m ih =>
    obtain ⟨x, v⟩ := c
    obtain ⟨hlt, hm'⟩ := List.pairwise_cons.mp hm
    unfold write
    split
    · next hax =>
      have hun : read ((x, v) :: m) a = unlisted :=
        read_of_lt fun c hc => by
          rcases List.mem_cons.mp hc with rfl | hc
          · exact hax
          · exact lt_trans hax (hlt c hc)
      split
      · next hb =>
        by_cases h : a' = a
        · subst h; simp [hun, hb]
        · simp [h]
      · by_cases h : a' = a
        · subst h; simp [read]
        · have : a ≠ a' := fun e => h e.symm
          simp [read, h, this]
    · split
      · next hna hax =>
        subst hax
        split
        · next hb =>
          by_cases h : a' = a
          · subst h; simp [read_of_lt fun c hc => hlt c hc, hb]
          · have : a ≠ a' := fun e => h e.symm
            simp [read, h, this]
        · by_cases h : a' = a
          · subst h; simp [read]
          · have : a ≠ a' := fun e => h e.symm
            simp [read, h, this]
      · next hna hax =>
        simp only [read, ih hm']
        by_cases h : x = a'
        · subst h; simp [Ne.symm hax]
        · simp [h]

/-- Every entry of a written memory is the one written or an old one. -/
theorem mem_write {m : Memory} {a : Nat} {b : Byte} {c : Host.Cell} (h : c ∈ write m a b) :
    (c = (a, b) ∧ b ≠ unlisted) ∨ c ∈ m := by
  induction m with
  | nil =>
    unfold write at h
    split at h
    · simp at h
    · next hb => simp at h; exact .inl ⟨h, hb⟩
  | cons d m ih =>
    obtain ⟨x, v⟩ := d
    unfold write at h
    split at h
    · split at h
      · exact .inr h
      · next hb =>
        rcases List.mem_cons.mp h with rfl | h
        · exact .inl ⟨rfl, hb⟩
        · exact .inr h
    · split at h
      · split at h
        · exact .inr (by simp [h])
        · next hb =>
          rcases List.mem_cons.mp h with rfl | h
          · exact .inl ⟨rfl, hb⟩
          · exact .inr (by simp [h])
      · rcases List.mem_cons.mp h with rfl | h
        · exact .inr (by simp)
        · rcases ih h with h | h
          · exact .inl h
          · exact .inr (by simp [h])

/-- A write keeps the addresses strictly rising. -/
theorem write_pairwise {m : Memory} (hm : m.Pairwise (fun c d => c.1 < d.1)) (a : Nat) (b : Byte) :
    (write m a b).Pairwise (fun c d => c.1 < d.1) := by
  induction m with
  | nil => unfold write; split <;> simp
  | cons c m ih =>
    obtain ⟨x, v⟩ := c
    obtain ⟨hlt, hm'⟩ := List.pairwise_cons.mp hm
    unfold write
    split
    · next hax =>
      split
      · exact hm
      · refine List.pairwise_cons.mpr ⟨fun d hd => ?_, hm⟩
        rcases List.mem_cons.mp hd with rfl | hd
        · exact hax
        · exact lt_trans hax (hlt d hd)
    · split
      · next _ hax =>
        subst hax
        split
        · exact hm'
        · exact List.pairwise_cons.mpr ⟨hlt, hm'⟩
      · next hna hne =>
        refine List.pairwise_cons.mpr ⟨fun d hd => ?_, ih hm'⟩
        rcases mem_write hd with ⟨rfl, _⟩ | hd
        · show x < a
          omega
        · exact hlt d hd

/-- A write keeps the canonical form. -/
theorem write_wf {m : Memory} (hm : wf m) (a : Nat) (b : Byte) : wf (write m a b) :=
  ⟨write_pairwise hm.1 a b, fun c hc => by
    rcases mem_write hc with ⟨rfl, hb⟩ | hc
    · exact hb
    · exact hm.2 c hc⟩

/-- Loading bytes keeps the canonical form. -/
theorem writeBytes_wf {m : Memory} (hm : wf m) (a : Nat) (bs : List Byte) : wf (writeBytes m a bs) := by
  induction bs generalizing m a with
  | nil => exact hm
  | cons b bs ih => exact ih (write_wf hm a b) (a + 1)

/-- Loading bytes adds entries only where the bytes go. -/
theorem mem_writeBytes {m : Memory} {a : Nat} {bs : List Byte} {c : Host.Cell} (h : c ∈ writeBytes m a bs) :
    c ∈ m ∨ (a ≤ c.1 ∧ c.1 < a + bs.length) := by
  induction bs generalizing m a with
  | nil => exact .inl h
  | cons b bs ih =>
    rcases ih h with h | ⟨h1, h2⟩
    · rcases mem_write h with ⟨rfl, _⟩ | h
      · exact .inr ⟨le_refl _, by simp⟩
      · exact .inl h
    · exact .inr ⟨by omega, by simp; omega⟩

/-- Reading after loading: the loaded byte inside the loaded range, the old byte outside it. -/
theorem read_writeBytes {m : Memory} (hm : wf m) (a a' : Nat) (bs : List Byte) :
    read (writeBytes m a bs) a' = if a ≤ a' then bs[a' - a]?.getD (read m a') else read m a' := by
  induction bs generalizing m a with
  | nil => simp [writeBytes]
  | cons b bs ih =>
    simp only [writeBytes]
    rw [ih (write_wf hm a b), read_write hm.1]
    by_cases h : a' = a
    · subst h
      have h1 : ¬ a' + 1 ≤ a' := by omega
      simp [h1]
    · by_cases h2 : a ≤ a'
      · have h3 : a + 1 ≤ a' := by omega
        obtain ⟨k, hk⟩ : ∃ k, a' - a = k + 1 := ⟨a' - a - 1, by omega⟩
        have hk' : a' - (a + 1) = k := by omega
        simp [h, h2, h3, hk, hk']
      · have h3 : ¬ a + 1 ≤ a' := by omega
        simp [h, h2, h3]

/-- Storing beyond every listed address, whether or not the list is in order. -/
theorem read_write_end {m : Memory} {a : Nat} (h : ∀ c ∈ m, c.1 < a) (a' : Nat) (b : Byte) :
    read (write m a b) a' = if a' = a then b else read m a' := by
  induction m with
  | nil =>
    unfold write
    split
    · next hb => subst hb; simp
    · simp [read, eq_comm]
  | cons c m ih =>
    obtain ⟨x, v⟩ := c
    have hx : x < a := h (x, v) (by simp)
    have h1 : ¬ a < x := by omega
    have h2 : a ≠ x := by omega
    simp only [write, h1, h2, if_false, read, ih fun c hc => h c (by simp [hc])]
    by_cases e : x = a'
    · subst e; simp [h2.symm]
    · simp [e]

/-- Loading beyond every listed address. -/
theorem read_writeBytes_end {m : Memory} {a : Nat} (h : ∀ c ∈ m, c.1 < a) (a' : Nat) (bs : List Byte) :
    read (writeBytes m a bs) a' = if a ≤ a' then bs[a' - a]?.getD (read m a') else read m a' := by
  induction bs generalizing m a with
  | nil => simp [writeBytes]
  | cons b bs ih =>
    have h' : ∀ c ∈ write m a b, c.1 < a + 1 := fun c hc => by
      rcases mem_write hc with ⟨rfl, _⟩ | hc
      · exact Nat.lt_succ_self a
      · exact Nat.lt_succ_of_lt (h c hc)
    simp only [writeBytes]
    rw [ih h', read_write_end h]
    by_cases e : a' = a
    · subst e
      have h1 : ¬ a' + 1 ≤ a' := by omega
      simp [h1]
    · by_cases h2 : a ≤ a'
      · have h3 : a + 1 ≤ a' := by omega
        obtain ⟨k, hk⟩ : ∃ k, a' - a = k + 1 := ⟨a' - a - 1, by omega⟩
        have hk' : a' - (a + 1) = k := by omega
        simp [e, h2, h3, hk, hk']
      · have h3 : ¬ a + 1 ≤ a' := by omega
        simp [e, h2, h3]

/-- The reset memory has the canonical form. -/
theorem reset_wf : wf State.reset.prog := by simp [State.reset, wf]

end Sys2Proof.Machine.Memory
end

