-- ==== Sys2Proof/Laws/Next.lean ====
section
/-! SUPPORT. The next states of the statements (`afterStack`, `afterFault`) against the operations of the machine. -/

namespace Sys2Proof.Machine.State

variable (s : State)

theorem setCur_setPc_eq (l : List Byte) (p : Nat) : (s.setCur l).setPc p = s.afterStack l p := rfl
theorem setCur_advance_eq (l : List Byte) : (s.setCur l).advance = s.afterStack l (s.pc + 1) := rfl

@[simp] theorem cur_afterStack (l : List Byte) (p : Nat) : (s.afterStack l p).cur = l := cur_setCur s l
@[simp] theorem afterStack_cfg (l : List Byte) (p : Nat) : (s.afterStack l p).cfg = s.cfg := rfl
@[simp] theorem afterStack_pc (l : List Byte) (p : Nat) : (s.afterStack l p).pc = p := rfl
@[simp] theorem afterStack_reg (l : List Byte) (p : Nat) : (s.afterStack l p).reg = s.reg := rfl

@[simp] theorem afterStack_afterStack (l m : List Byte) (p q : Nat) :
    (s.afterStack l p).afterStack m q = s.afterStack m q := by
  simp [afterStack, Vector.set_set]

/-- Putting back what was there: only `pc` differs. -/
theorem afterStack_self (q : Nat) : s.afterStack s.cur q = { s with pc := q } := by
  simp [afterStack, cur]

variable {s}

/-- A fault taken at a position of the program (60_exceptions.md R152, R153). -/
theorem raise_eq_afterFault {k : FaultKind} {ch : Byte} {aux : Nat} (h : s.memRead s.pc = some ch) :
    s.raise k aux = .next (s.afterFault k ch aux) := by
  rw [raise_of_memRead h]; cases k <;> rfl

theorem settle_binop_next {op : Byte → Byte → Except FaultKind Byte} {l : List Byte} {a b r : Byte}
    (hc : s.cur = l ++ [a, b]) (hop : op a b = .ok r) (hcap : s.cfg.dcap.holds s.cur.length = true) :
    s.settle (s.binop op) = .next (s.afterStack (l ++ [r]) (s.pc + 1)) := by
  rw [binop_concat hc hop hcap]; rfl

theorem settle_binop_short {op : Byte → Byte → Except FaultKind Byte} {ch : Byte} (h : s.cur.length < 2)
    (hm : s.memRead s.pc = some ch) : s.settle (s.binop op) = .next (s.afterFault .stackEmpty ch s.pc) := by
  rw [binop_short h, settle_error, raise_eq_afterFault hm]

/-- The bytes placed at `pc` are what the next step fetches from. -/
theorem progFrom_placeAtPc (bs : List Byte) : (s.placeAtPc bs).progFrom s.pc = bs := by
  have hlt : ∀ c ∈ s.prog.filter (fun c => decide (c.1 < s.pc)), c.1 < s.pc := fun c hc => by simpa using (List.mem_filter.mp hc).2
  apply List.ext_getElem?
  intro k
  rw [progFrom_getElem?]
  by_cases hk : k < bs.length
  · have h1 : s.pc + k < (s.placeAtPc bs).plen := by simp [placeAtPc, hk]
    rw [memRead_isSome_of_lt _ h1]
    show some (Memory.read (Memory.writeBytes _ s.pc bs) (s.pc + k)) = _
    rw [Memory.read_writeBytes_end hlt]
    simp [hk]
  · have h1 : ¬ s.pc + k < (s.placeAtPc bs).plen := by simp [placeAtPc]; omega
    simp at hk
    simp [memRead, h1, hk]

end Sys2Proof.Machine.State
end

