-- ==== Sys2Proof/Laws/PerInstr.lean ====
section
/-! SUPPORT. Statements made for every instruction, one lemma per constructor. -/

namespace Sys2Proof.Laws.EncodeLength

/-- An instruction that has a length (30_encoding.md R68) is encoded in exactly that many bytes (R60). -/
def Statement (i : Sys2Proof.Instr) : Prop := ∀ n, i.length = some n → i.encode.length = n

theorem pushd (d : Byte) : Statement (.pushd d) := fun _ h => by cases h; rfl
theorem pushl (c : Byte) : Statement (.pushl c) := fun _ h => by cases h; rfl
theorem add : Statement .add := fun _ h => by cases h; rfl
theorem sub : Statement .sub := fun _ h => by cases h; rfl
theorem mul : Statement .mul := fun _ h => by cases h; rfl
theorem div : Statement .div := fun _ h => by cases h; rfl
theorem mod : Statement .mod := fun _ h => by cases h; rfl
theorem and : Statement .and := fun _ h => by cases h; rfl
theorem or : Statement .or := fun _ h => by cases h; rfl
theorem xor : Statement .xor := fun _ h => by cases h; rfl
theorem drop : Statement .drop := fun _ h => by cases h; rfl
theorem dup : Statement .dup := fun _ h => by cases h; rfl
theorem swap : Statement .swap := fun _ h => by cases h; rfl
theorem next : Statement .next := fun _ h => by cases h; rfl
theorem prev : Statement .prev := fun _ h => by cases h; rfl
theorem outb : Statement .outb := fun _ h => by cases h; rfl
theorem inb : Statement .inb := fun _ h => by cases h; rfl
theorem outd : Statement .outd := fun _ h => by cases h; rfl
theorem loopnz : Statement .loopnz := fun _ h => by cases h; rfl
theorem endnz : Statement .endnz := fun _ h => by cases h; rfl
theorem loopne : Statement .loopne := fun _ h => by cases h; rfl
theorem endne : Statement .endne := fun _ h => by cases h; rfl
theorem store : Statement .store := fun _ h => by cases h; rfl
theorem load : Statement .load := fun _ h => by cases h; rfl

theorem str (lit : StrLit) : Statement (.str lit) := fun _ h => by
  cases lit with
  | closed body => cases h; simp [Instr.encode, Instr.trailer]
  | unclosed => cases h

theorem num (lit : NumLit) : Statement (.num lit) := fun _ h => by
  cases lit with
  | closed digits => cases h; simp [Instr.encode, Instr.trailer]
  | badChar k => cases h
  | unclosed => cases h

theorem nop (c : Byte) : Statement (.nop c) := fun _ h => by cases h; rfl

end Sys2Proof.Laws.EncodeLength
end

