-- ==== Sys2Proof/Tests/Slice0.lean ====
section
/-! SUPPORT. Small checks of the model, and a witness for the hypotheses of every statement. Expected values come from
spec/opcode_table.json, 30_encoding.md R60 to R68 and 95_test_vectors.md, named at each test. -/

namespace Sys2Proof.Tests

open Sys2Proof.Machine

/-- A machine right after reset with a program loaded, `S` as given and `pc` at `p`. -/
def mk (program stack : List Byte) (p : Nat := 0) : State := ((State.reset.load program).setCur stack).setPc p

/-- The same with the capacities `d` (data) and `c` (call). -/
def mkCap (d c : Nat) (program stack : List Byte) (p : Nat := 0) : State :=
  { mk program stack p with cfg := { Config.standard with dcap := some d, ccap := some c } }

/-- What `f` sees in the next state, if there is one. -/
def after {α : Type} (s : State) (f : State → α) : Option α :=
  match step s with
  | .next t => some (f t)
  | .fault _ => none
  | .refused _ => none

/-- The next state keeps `S` and holds this fault record. -/
def faulted (s : State) (r : FaultRecord) : Prop :=
  after s (fun t => (t.fault, t.run, t.cur, t.pc)) = some (some r, r.kind.status, s.cur, s.pc)

/-! ### Ill-formed terms are refused (30_encoding.md R60 to R68) -/

theorem test_wf_pushd_ten : Instr.wf (some 0x5C) (.pushd 10) = false ∧ Instr.wf (some 0x5C) (.pushd 9) = true := by decide
theorem test_wf_pushl_not_a_letter : Instr.wf (some 0x5C) (.pushl 0x40) = false ∧ Instr.wf (some 0x5C) (.pushl 0x5B) = false ∧
    Instr.wf (some 0x5C) (.pushl 0x60) = false ∧ Instr.wf (some 0x5C) (.pushl 0x7B) = false := by decide
theorem test_wf_nop_of_an_opcode : Instr.wf (some 0x5C) (.nop 0x41) = false ∧ Instr.wf (some 0x5C) (.nop 0x2B) = false ∧
    Instr.wf (some 0x5C) (.nop 0x30) = false ∧ Instr.wf (some 0x5C) (.nop 0x22) = false := by decide
theorem test_wf_str_inner_quote : Instr.wf (some 0x5C) (.str (.closed [0x61, 0x22, 0x62])) = false := by decide
theorem test_wf_str_last_quote : Instr.wf (some 0x5C) (.str (.closed [0x22])) = false := by decide
theorem test_wf_str_dangling_escape : Instr.wf (some 0x5C) (.str (.closed [0x61, 0x5C])) = false := by decide
theorem test_wf_str_escape_is_the_quote : Instr.wf (some 0x22) (.str (.closed [0x61])) = false := by decide
theorem test_wf_str_unclosed : Instr.wf (some 0x5C) (.str .unclosed) = false := by decide
theorem test_wf_num_not_a_digit : Instr.wf (some 0x5C) (.num (.closed [0x31, 0x3A])) = false := by decide
theorem test_wf_num_bad_char : Instr.wf (some 0x5C) (.num (.badChar 0)) = false := by decide
theorem test_wf_num_unclosed : Instr.wf (some 0x5C) (.num .unclosed) = false := by decide

/-! ### Decoding, from the encodings of spec/opcode_table.json written bit by bit -/

theorem test_decode_pushes : decode (some 0x5C) [0b00110000#8] = .ok (.pushd 0) ∧
    decode (some 0x5C) [0b00111001#8] = .ok (.pushd 9) ∧ decode (some 0x5C) [0b01000001#8] = .ok (.pushl 0x41) ∧
    decode (some 0x5C) [0b01111010#8] = .ok (.pushl 0x7A) ∧ decode (some 0x5C) [0b10000000#8] = .ok (.nop 0x80) := by decide
theorem test_decode_arithmetic : decode (some 0x5C) [0b00101011#8] = .ok .add ∧ decode (some 0x5C) [0b00101101#8] = .ok .sub ∧
    decode (some 0x5C) [0b00101010#8] = .ok .mul ∧ decode (some 0x5C) [0b00101111#8] = .ok .div ∧
    decode (some 0x5C) [0b00100101#8] = .ok .mod ∧ decode (some 0x5C) [0b00100110#8] = .ok .and ∧
    decode (some 0x5C) [0b01111100#8] = .ok .or ∧ decode (some 0x5C) [0b01011110#8] = .ok .xor := by decide
theorem test_decode_stack : decode (some 0x5C) [0b01011111#8] = .ok .drop ∧ decode (some 0x5C) [0b00100011#8] = .ok .dup ∧
    decode (some 0x5C) [0b01000000#8] = .ok .swap ∧ decode (some 0x5C) [0b00111110#8] = .ok .next ∧
    decode (some 0x5C) [0b00111100#8] = .ok .prev := by decide
theorem test_decode_io : decode (some 0x5C) [0b00101110#8] = .ok .outb ∧ decode (some 0x5C) [0b00101100#8] = .ok .inb ∧
    decode (some 0x5C) [0b00111011#8] = .ok .outd := by decide
theorem test_decode_loops : decode (some 0x5C) [0b01011011#8] = .ok .loopnz ∧ decode (some 0x5C) [0b01011101#8] = .ok .endnz ∧
    decode (some 0x5C) [0b01111011#8] = .ok .loopne ∧ decode (some 0x5C) [0b01111101#8] = .ok .endne := by decide
theorem test_decode_registers : decode (some 0x5C) [0b00111101#8] = .ok .store ∧
    decode (some 0x5C) [0b00100100#8] = .ok .load := by decide
theorem test_decode_strings :
    decode (some 0x5C) [0b00100010#8, 0b01000001#8, 0b00100010#8] = .ok (.str (.closed [0x41])) ∧
    decode (some 0x5C) [0x22, 0x61, 0x5C, 0x5C, 0x22] = .ok (.str (.closed [0x61, 0x5C, 0x5C])) ∧
    decode (some 0x5C) [0x22, 0x5C] = .ok (.str .unclosed) ∧ decode none [0x22] = .ok (.str .unclosed) := by decide
theorem test_decode_numbers :
    decode (some 0x5C) [0b00100111#8, 0b00110010#8, 0b00110101#8, 0b00100111#8] = .ok (.num (.closed [0x32, 0x35])) ∧
    decode (some 0x5C) [0x27, 0x27] = .ok (.num (.closed [])) ∧ decode (some 0x5C) [0x27, 0x2D, 0x31, 0x27] = .ok (.num (.badChar 0)) ∧
    decode (some 0x5C) [0x27, 0x31, 0x32, 0x78] = .ok (.num (.badChar 2)) ∧ decode (some 0x5C) [0x27] = .ok (.num .unclosed) := by decide
theorem test_decode_nothing : decode (some 0x5C) [] = .error .endOfProgram := by decide

/-- The mnemonic of the instruction a byte selects. -/
def mnemonicOf (n : Nat) : Option String := (decodeTableWord 8 n).map Instr.mnemonic

set_option maxRecDepth 8000 in
/-- 30_encoding.md R65: 10 digits, 52 letters, 170 no-ops. -/
theorem test_opcode_map_counts : (List.range 256).countP (fun n => mnemonicOf n == some "PUSHD") = 10 ∧
    (List.range 256).countP (fun n => mnemonicOf n == some "PUSHL") = 52 ∧
    (List.range 256).countP (fun n => mnemonicOf n == some "NOP") = 170 := by decide

/-- The first byte of a table word is bits 7..0. -/
theorem test_table_word : decodeTableWord 24 0x224122 = some (.str (.closed [0x41])) ∧ decodeTableWord 8 0x27 = some (.num .unclosed) := by
  decide

/-! ### One step (95_test_vectors.md) -/

/-- V11. -/
theorem test_pushd : after (mk [0x39] [1]) (fun t => (t.cur, t.pc)) = some ([1, 9], 1) := by decide
/-- V21: `1234` then `5` with `DCAP = 4`. -/
theorem test_pushd_full : faulted (mkCap 4 4 [0x31, 0x32, 0x33, 0x34, 0x35] [1, 2, 3, 4] 4) ⟨.alloc, 4, 0x35, 4⟩ := by
  unfold faulted; decide
/-- V11. -/
theorem test_pushl : after (mk [0x7A] []) (fun t => (t.cur, t.pc)) = some ([122], 1) := by decide
/-- V11. -/
theorem test_nop : after (mk [0xFF] [3]) (fun t => (t.cur, t.pc, t.run)) = some ([3], 1, .running) := by decide

/-- V12, row 200, 100. -/
theorem test_add : after (mk [0x2B] [9, 200, 100]) State.cur = some [9, 44] := by decide
/-- V12: `1+`. -/
theorem test_add_short : faulted (mk [0x31, 0x2B] [1] 1) ⟨.stackEmpty, 1, 0x2B, 1⟩ := by unfold faulted; decide
/-- V12, row 3, 7. -/
theorem test_sub : after (mk [0x2D] [3, 7]) State.cur = some [252] := by decide
/-- V12, row 200, 100. -/
theorem test_mul : after (mk [0x2A] [200, 100]) State.cur = some [32] := by decide
/-- V12: `'200'2/`. -/
theorem test_div : after (mk [0x2F] [200, 2]) State.cur = some [100] := by decide
/-- V12: `10/`. -/
theorem test_div_zero : faulted (mk [0x31, 0x30, 0x2F] [1, 0] 2) ⟨.divZero, 2, 0x2F, 2⟩ := by unfold faulted; decide
/-- V12, row 3, 7. -/
theorem test_mod : after (mk [0x25] [3, 7]) State.cur = some [3] := by decide
/-- V12: `0/` with `%`: the pops are checked before the divisor. -/
theorem test_mod_short : faulted (mk [0x30, 0x25] [0] 1) ⟨.stackEmpty, 1, 0x25, 1⟩ := by unfold faulted; decide
/-- V12, row 200, 100. -/
theorem test_and : after (mk [0x26] [200, 100]) State.cur = some [64] := by decide
/-- V12, row 200, 100. -/
theorem test_or : after (mk [0x7C] [200, 100]) State.cur = some [236] := by decide
/-- V12, row 200, 100. -/
theorem test_xor : after (mk [0x5E] [200, 100]) State.cur = some [172] := by decide

/-- V13. -/
theorem test_drop : after (mk [0x31, 0x32, 0x5F] [1, 2] 2) State.cur = some [1] := by decide
/-- V13. -/
theorem test_drop_empty : faulted (mk [0x5F] []) ⟨.stackEmpty, 0, 0x5F, 0⟩ := by unfold faulted; decide
/-- V3. -/
theorem test_dup : after (mk [0x37, 0x23] [7] 1) State.cur = some [7, 7] := by decide
/-- V21: `1234#` with `DCAP = 4`. -/
theorem test_dup_full : faulted (mkCap 4 4 [0x31, 0x32, 0x33, 0x34, 0x23] [1, 2, 3, 4] 4) ⟨.alloc, 4, 0x23, 4⟩ := by
  unfold faulted; decide
/-- V21: `1234@` with `DCAP = 4`. -/
theorem test_swap : after (mkCap 4 4 [0x40] [1, 2, 3, 4]) State.cur = some [1, 2, 4, 3] := by decide
/-- V13: 256 times `>`. -/
theorem test_next_wraps : after { mk [0x3E] [] with sel := 255 } State.sel = some 0 := by decide
/-- V13. -/
theorem test_prev_wraps : after (mk [0x3C] []) State.sel = some 255 := by decide

/-- V14. -/
theorem test_outb : after { mk [0x2E] [10] with out := [0x41] } (fun t => (t.out, t.cur)) = some ([0x41, 0x0A], []) := by decide
/-- V14. -/
theorem test_outd : after (mk [0x3B] [255]) (fun t => (t.out, t.cur)) = some ([0x32, 0x35, 0x35, 0x20], []) := by decide
/-- V14: an inner zero digit is kept. -/
theorem test_outd_hundred : after (mk [0x3B] [100]) State.out = some [0x31, 0x30, 0x30, 0x20] := by decide
/-- V10: `EOFVAL = 42`. -/
theorem test_inb_eof : after { mk [0x2C] [97] with eofval := 42, input := [.eof, .byte 0x41] }
    (fun t => (t.cur, t.input)) = some ([97, 42], [.byte 0x41]) := by decide
/-- V15: `1,` with `DCAP = 1`: the answer is lost. -/
theorem test_inb_full : after { mkCap 1 1 [0x31, 0x2C] [1] 1 with input := [.byte 0x41, .byte 0x42] }
    (fun t => (t.fault, t.cur, t.input)) = some (some ⟨.alloc, 1, 0x2C, 1⟩, [1], [.byte 0x42]) := by decide

/-- V16: `0[[]]7`. -/
theorem test_loopnz_skips : after (mk [0x30, 0x5B, 0x5B, 0x5D, 0x5D, 0x37] [0] 1) (fun t => (t.pc, t.sq, t.cur)) =
    some (5, [], [0]) := by decide
/-- V6, step 2. -/
theorem test_loopnz_enters : after (mk [0x39, 0x5B, 0x31, 0x2D, 0x23, 0x5D] [9] 1) (fun t => (t.pc, t.sq, t.cur)) =
    some (2, [1], [9]) := by decide
/-- V6, step 6. -/
theorem test_endnz : after { mk [0x39, 0x5B, 0x31, 0x2D, 0x23, 0x5D] [8, 8] 5 with sq := [1] }
    (fun t => (t.pc, t.sq, t.cur)) = some (1, [], [8, 8]) := by decide
/-- V9: an open curly loop does not serve a `]`. -/
theorem test_endnz_unmatched : faulted { mk [0x31, 0x7B, 0x5D] [1] 2 with cu := [1] } ⟨.unmatchedClose, 2, 0x5D, 2⟩ := by
  unfold faulted; decide
/-- V17: the `[` in a skipped curly body is not counted. -/
theorem test_loopne_skips : after (mk [0x7B, 0x5B, 0x7D] []) (fun t => (t.pc, t.cu)) = some (3, []) := by decide
/-- V17. -/
theorem test_loopne_unmatched : faulted (mk [0x7B, 0x7B, 0x7D] []) ⟨.unmatchedOpen, 0, 0x7B, 0⟩ := by unfold faulted; decide
/-- V7a, step 6. -/
theorem test_endne : after { mk [0x31, 0x32, 0x33, 0x7B, 0x5F, 0x7D] [1, 2] 5 with cu := [3] }
    (fun t => (t.pc, t.cu)) = some (3, []) := by decide

/-- V18: `A5=`: the index is under the value. -/
theorem test_store : after (mk [0x41, 0x35, 0x3D] [65, 5] 2) (fun t => (t.readReg 65, t.readReg 5, t.cur)) =
    some (5, 0, []) := by decide
/-- V18: highest index, highest value. -/
theorem test_load : after ((mk [0x24] [255]).writeReg 255 255) State.cur = some [255] := by decide

/-- V19: the escape byte is pushed too, and the first character ends on top. -/
theorem test_str : after (mk [0x22, 0x61, 0x5C, 0x22, 0x62, 0x22] []) (fun t => (t.cur, t.pc)) =
    some ([98, 34, 92, 97], 6) := by decide
/-- V21: `1"abcd"` with `DCAP = 4`: nothing is pushed. -/
theorem test_str_full : faulted (mkCap 4 4 [0x31, 0x22, 0x61, 0x62, 0x63, 0x64, 0x22] [1] 1) ⟨.alloc, 1, 0x22, 1⟩ := by
  unfold faulted; decide
/-- V5: `'999'`. -/
theorem test_num : after (mk [0x27, 0x39, 0x39, 0x39, 0x27] []) (fun t => (t.cur, t.pc)) = some ([231], 5) := by decide
/-- V21: `1234'5x'` with `DCAP = 4`: the literal's form is checked before the room. -/
theorem test_num_bad_char : faulted (mkCap 4 4 [0x31, 0x32, 0x33, 0x34, 0x27, 0x35, 0x78, 0x27] [1, 2, 3, 4] 4)
    ⟨.numericBadChar, 4, 0x27, 6⟩ := by unfold faulted; decide

/-- V11: the empty program halts at once. -/
theorem test_empty_program : after State.reset (fun t => (t.run, t.pc)) = some (.haltOk, 0) := by decide
/-- The placed word is the first instruction that runs after reset. -/
theorem test_placed_word : after (State.reset.withFetchWord 8 0x3E) (fun t => (t.sel, t.pc, t.plen)) = some (1, 1, 1) := by decide

/-! ### Witnesses: for every statement, a state and operands that meet each clause's hypotheses together -/

theorem witness_DecodeOfEncodeGivesTheInstruction :
    Instr.wf (some 0x5C) (.str (.closed [0x61, 0x5C, 0x22, 0x62])) = true ∧ Instr.wf none (.str (.closed [0x61, 0x5C])) = true ∧
    Instr.wf none (.num (.closed [0x30, 0x39])) = true ∧ Instr.wf none (.num (.closed [])) = true ∧
    Instr.wf none (.pushd 9) = true ∧ Instr.wf none (.pushl 0x5A) = true ∧ Instr.wf none (.pushl 0x61) = true ∧
    Instr.wf none (.nop 0x7E) = true ∧ Instr.wf none .add = true := by decide

theorem witness_DecodedBytesAreTheEncoding :
    decode (some 0x5C) [0x22, 0x61, 0x22, 0x2B] = .ok (.str (.closed [0x61])) ∧
    Instr.length (.str (.closed [0x61])) = some 3 := by decide

/-- The ends of each range, one row, and the bytes beside the ranges that are no-ops. -/
theorem witness_EveryByteDecodesToItsRow :
    decode none [0x30] = .ok (.pushd 0) ∧ decode none [0x39] = .ok (.pushd 9) ∧
    decode none [0x41] = .ok (.pushl 0x41) ∧ decode none [0x5A] = .ok (.pushl 0x5A) ∧
    decode none [0x61] = .ok (.pushl 0x61) ∧ decode none [0x7A] = .ok (.pushl 0x7A) ∧
    (0x7D, "ENDNE") ∈ opcodeRows ∧ (∀ row ∈ opcodeRows, row.1 ≠ (0x3A : Byte)) ∧
    (∀ row ∈ opcodeRows, row.1 ≠ (0x7E : Byte)) := by decide

theorem witness_NumericScanEndsAtFirstNonDigit : (∀ d ∈ ([0x30, 0x39] : List Byte), 0x30 ≤ d.toNat ∧ d.toNat ≤ 0x39) ∧
    (0x3A : Byte) ≠ 0x27 ∧ ¬(0x30 ≤ (0x3A : Byte).toNat ∧ (0x3A : Byte).toNat ≤ 0x39) ∧
    (0x2F : Byte) ≠ 0x27 ∧ ¬(0x30 ≤ (0x2F : Byte).toNat ∧ (0x2F : Byte).toNat ≤ 0x39) := by decide

/-- Both answers occur: a body that closes, and an escaped last quote. -/
theorem witness_StringClosesAtFirstUnescapedQuote :
    decode (some 0x5C) (0x22 :: ([0x5C, 0x22] ++ [0x22])) = .ok (.str (.closed [0x5C, 0x22])) ∧
    wfStrBody (some 0x5C) [0x5C, 0x22] = true ∧ (some 0x5C : Option Byte) ≠ some 0x22 ∧
    decode (some 0x5C) [0x22, 0x5C, 0x22] = .ok (.str .unclosed) := by decide

/-- The last byte of a program of `2^2 - 1` bytes with `PCW = 2`. -/
def atLastByte : State := { mk [0x31, 0x32, 0x2B] [1, 2] 2 with cfg := { Config.standard with pcw := some 2 } }

theorem witness_StepRunsTheDecodedInstruction : atLastByte.run = .running ∧ atLastByte.cfg.fits atLastByte.plen = true ∧
    atLastByte.pc < atLastByte.plen ∧ decode atLastByte.cfg.strEsc (atLastByte.progFrom atLastByte.pc) = .ok .add := by decide

theorem witness_EveryPositionRunsAnInstruction : atLastByte.run = .running ∧
    atLastByte.cfg.fits atLastByte.plen = true ∧ atLastByte.pc < atLastByte.plen := by decide

/-- At the end with open loops and entries on the stack. -/
theorem witness_StepAtTheEndHalts : let s := { mk [0x31, 0x5B] [1] 2 with sq := [1] };
    s.run = .running ∧ s.cfg.fits s.plen = true ∧ s.pc = s.plen := by decide

theorem witness_StoppedMachineTakesNoStep : { mk [0x2B] [1, 2] with run := .haltOk }.run ≠ .running ∧
    { mk [0x2B] [1, 2] with run := .faultErr }.run ≠ .running ∧ { mk [0x2B] [1, 2] with run := .faultAlloc }.run ≠ .running := by
  decide

theorem witness_OverlongProgramIsRefused :
    let s := { mk [0x31, 0x32, 0x2B, 0x2E] [] with cfg := { Config.standard with pcw := some 2 } };
    s.run = .running ∧ s.cfg.pcw = some 2 ∧ 2 ^ 2 ≤ s.plen := by decide

theorem witness_PlacedTableWordRunsNext : decodeTableWord 8 0x2B = some .add ∧
    (mk [0x30, 0x31] [1, 2] 1).cfg.strEsc = Config.standard.strEsc := by decide

/-- The ends of each range; room for exactly one more; exactly full. -/
theorem witness_DigitAndLetterPushTheirImmediate :
    (0x30 ≤ (0x30 : Byte).toNat ∧ (0x39 : Byte).toNat ≤ 0x39) ∧ (0x41 ≤ (0x41 : Byte).toNat ∧ (0x5A : Byte).toNat ≤ 0x5A) ∧
    (0x61 ≤ (0x61 : Byte).toNat ∧ (0x7A : Byte).toNat ≤ 0x7A) ∧
    (let s := mkCap 2 2 [0x31] [1]; s.cfg.dcap ≠ some s.cur.length) ∧
    (let s := mkCap 2 2 [0x31] [1, 1]; s.cfg.dcap = some s.cur.length ∧ s.memRead s.pc = some 0x31) := by decide

theorem witness_FillerByteOnlyAdvances : let s := mk [0x31, 0x21] [1] 1;
    s.run = .running ∧ s.cfg.fits s.plen = true ∧ s.memRead s.pc = some 0x21 ∧ wfFillerChar 0x21 = true := by decide

/-- A row of the table. -/
theorem witness_totalOperators : ∃ row ∈ totalOperators, row.1 = 0x2B ∧ row.2.1 = .add ∧ row.2.2 200 100 = 44 :=
  ⟨_, List.mem_cons_self, rfl, rfl, rfl⟩

/-- Two entries on a full stack; one entry, and none. -/
theorem witness_BinaryOperatorsReplaceTwoByResult :
    (let s := mkCap 2 2 [0x2B] [200, 100]; s.cur = [] ++ [200, 100] ∧ s.cfg.dcap.holds s.cur.length = true) ∧
    (let s := mk [0x2B] [1]; s.cur.length < 2 ∧ s.memRead s.pc = some 0x2B) ∧
    (let s := mk [0x2B] []; s.cur.length < 2 ∧ s.memRead s.pc = some 0x2B) := by decide

theorem witness_DivisionIsUnsignedAndZeroFaults :
    (let s := mkCap 2 2 [0x2F] [200, 1]; s.cur = [] ++ [200, 1] ∧ s.cfg.dcap.holds s.cur.length = true ∧ (1 : Byte) ≠ 0) ∧
    (let s := mk [0x2F] [5, 0]; s.cur = [] ++ [5, 0] ∧ s.memRead s.pc = some 0x2F) ∧
    (let s := mk [0x2F] [0]; s.cur.length < 2 ∧ s.memRead s.pc = some 0x2F) := by decide

theorem witness_DropRemovesTheTop : (mk [0x5F] [1]).cur = [] ++ [1] ∧
    (let s := mk [0x5F] []; s.cur = [] ∧ s.memRead s.pc = some 0x5F) := by decide

theorem witness_DupCopiesTheTop :
    (let s := mkCap 2 2 [0x23] [7]; s.cur = [] ++ [7] ∧ s.cfg.dcap ≠ some s.cur.length) ∧
    (let s := mk [0x23] []; s.cur = [] ∧ s.memRead s.pc = some 0x23) ∧
    (let s := mkCap 1 1 [0x23] [7]; s.cur ≠ [] ∧ s.cfg.dcap = some s.cur.length ∧ s.memRead s.pc = some 0x23) := by decide

theorem witness_SwapExchangesTheTopTwo :
    (let s := mkCap 2 2 [0x40] [1, 2]; s.cur = [] ++ [1, 2] ∧ s.cfg.dcap.holds s.cur.length = true) ∧
    (let s := mk [0x40] [1]; s.cur.length < 2 ∧ s.memRead s.pc = some 0x40) := by decide

theorem witness_DupDropAndSwapSwapRestore :
    (let s := mkCap 2 2 [0x23, 0x5F] [7]; s.cur ≠ [] ∧ s.cfg.dcap ≠ some s.cur.length) ∧
    (let s := mkCap 2 2 [0x40, 0x40] [1, 2]; 2 ≤ s.cur.length ∧ s.cfg.dcap.holds s.cur.length = true) := by decide

theorem witness_OutbEmitsTheTop : (mk [0x2E] [65]).cur = [] ++ [65] ∧
    (let s := mk [0x2E] []; s.cur = [] ∧ s.memRead s.pc = some 0x2E) := by decide

theorem witness_OutdEmitsDecimalAndSpace : (mk [0x3B] [255]).cur = [] ++ [255] ∧
    (let s := mk [0x3B] []; s.cur = [] ∧ s.memRead s.pc = some 0x3B) := by decide

theorem witness_InbPushesTheAnswer :
    (let s := { mkCap 1 1 [0x2C] [] with input := [.byte 0x61] }; s.input = .byte 0x61 :: [] ∧ s.cfg.dcap ≠ some s.cur.length) ∧
    (let s := { mkCap 1 1 [0x2C] [] with input := [.eof] }; s.input = .eof :: [] ∧ s.cfg.dcap ≠ some s.cur.length) ∧
    (let s := { mkCap 1 1 [0x2C] [1] with input := [.eof] };
      s.input = .eof :: [] ∧ s.cfg.dcap = some s.cur.length ∧ s.memRead s.pc = some 0x2C) := by decide

/-- With room, and on a full stack. -/
theorem witness_InbWaitsForAnAnswer :
    (let s := mkCap 1 1 [0x2C] []; s.input = [] ∧ s.cfg.dcap ≠ some s.cur.length) ∧ (mkCap 1 1 [0x2C] [1]).input = [] := by
  decide

/-- The scan of `0[[]]7` from the byte after the outer opener. -/
theorem witness_ScanFindsTheBalancingCloser : (0x5B : Byte) ≠ 0x5D ∧
    (mk [0x30, 0x5B, 0x5B, 0x5D, 0x5D, 0x37] [0] 1).scan 0x5B 0x5D 2 = some 4 ∧
    (mk [0x30, 0x5B, 0x5B, 0x5D] [0] 1).scan 0x5B 0x5D 2 = none := by decide

theorem witness_LoopnzEntersOrSkips :
    (let s := mkCap 2 1 [0x5B, 0x5D] [1]; s.cur = [] ++ [1] ∧ (1 : Byte) ≠ 0 ∧ s.cfg.ccap ≠ some s.sq.length) ∧
    (let s := mk [0x5B, 0x5D] [0]; s.cur = [] ++ [0] ∧ s.scan 0x5B 0x5D (s.pc + 1) = some 1) ∧
    (let s := mk [0x5B] []; s.cur = [] ∧ s.memRead s.pc = some 0x5B) ∧
    (let s := mk [0x5B] [0]; s.cur = [] ++ [0] ∧ s.scan 0x5B 0x5D (s.pc + 1) = none ∧ s.memRead s.pc = some 0x5B) ∧
    (let s := { mkCap 2 1 [0x5B, 0x5B] [1] 1 with sq := [0] };
      s.cur = [] ++ [1] ∧ (1 : Byte) ≠ 0 ∧ s.cfg.ccap = some s.sq.length ∧ s.memRead s.pc = some 0x5B) := by decide

theorem witness_LoopneEntersOrSkips :
    (let s := mkCap 2 1 [0x7B, 0x7D] [0]; s.cur ≠ [] ∧ s.cfg.ccap ≠ some s.cu.length) ∧
    (let s := mk [0x7B, 0x7D] []; s.cur = [] ∧ s.scan 0x7B 0x7D (s.pc + 1) = some 1) ∧
    (let s := mk [0x7B] []; s.cur = [] ∧ s.scan 0x7B 0x7D (s.pc + 1) = none ∧ s.memRead s.pc = some 0x7B) ∧
    (let s := { mkCap 2 1 [0x7B, 0x7B] [0] 1 with cu := [0] };
      s.cur ≠ [] ∧ s.cfg.ccap = some s.cu.length ∧ s.memRead s.pc = some 0x7B) := by decide

theorem witness_ClosersReturnToTheirCallStack :
    { mk [0x5B, 0x5D] [1] 1 with sq := [0] }.sq = [] ++ [0] ∧ { mk [0x7B, 0x7D] [1] 1 with cu := [0] }.cu = [] ++ [0] ∧
    (let s := mk [0x5D] []; s.sq = [] ∧ s.memRead s.pc = some 0x5D) ∧
    (let s := mk [0x7D] []; s.cu = [] ∧ s.memRead s.pc = some 0x7D) := by decide

theorem witness_CloserUndoesItsOpenersEntry :
    (∃ t, exec .loopnz (mk [0x5B, 0x5D] [1]) = .next t ∧ t.sq ≠ (mk [0x5B, 0x5D] [1]).sq) ∧
    (∃ t, exec .loopne (mk [0x7B, 0x7D] [1]) = .next t ∧ t.cu ≠ (mk [0x7B, 0x7D] [1]).cu) :=
  ⟨⟨_, rfl, by decide⟩, ⟨_, rfl, by decide⟩⟩

theorem witness_StoreWritesTheIndexedRegister : (mk [0x3D] [255, 65]).cur = [] ++ [255, 65] ∧
    (let s := mk [0x3D] [1]; s.cur.length < 2 ∧ s.memRead s.pc = some 0x3D) := by decide

theorem witness_LoadPushesTheIndexedRegister :
    (let s := mkCap 1 1 [0x24] [255]; s.cur = [] ++ [255] ∧ s.cfg.dcap.holds s.cur.length = true) ∧
    (let s := mk [0x24] []; s.cur = [] ∧ s.memRead s.pc = some 0x24) := by decide

theorem witness_StoreThenLoadRoundTrip :
    let s := mk [0x3D, 0x24] [5, 65];
    let u := { mkCap 1 1 [0x3D, 0x24] [5] 1 with reg := State.reset.reg.set 5 65 };
    s.cur = [] ++ [5, 65] ∧ u.cur = [] ++ [5] ∧ u.cfg.dcap.holds u.cur.length = true ∧
      ∃ t, exec .store s = .next t ∧ u.reg = t.reg :=
  ⟨by decide, by decide, by decide, _, rfl, rfl⟩

/-- A body that just fits, one that does not, and an unclosed one. -/
theorem witness_StringLiteralPushesItsBodyReversed :
    (let s := mkCap 3 1 [0x22, 0x61, 0x62, 0x22] [1]; s.cfg.dcap.holds (s.cur.length + [0x61, 0x62].length) = true) ∧
    (let s := mkCap 2 1 [0x22, 0x61, 0x62, 0x22] [1];
      s.cfg.dcap.holds (s.cur.length + [0x61, 0x62].length) = false ∧ s.memRead s.pc = some 0x22) := by decide

theorem witness_StringPushIsALoopOfPushes :
    let s := mkCap 3 1 [0x22, 0x61, 0x62, 0x22] [1]; s.cfg.dcap.holds (s.cur.length + [0x61, 0x62].length) = true := by decide

theorem witness_NumericLiteralPushesNumberModulo256 :
    (let s := mkCap 2 1 [0x27, 0x30, 0x39, 0x27] [1];
      (∀ d ∈ ([0x30, 0x39] : List Byte), 0x30 ≤ d.toNat ∧ d.toNat ≤ 0x39) ∧ s.cfg.dcap ≠ some s.cur.length) ∧
    (let s := mkCap 1 1 [0x27, 0x30, 0x27] [1]; s.cfg.dcap = some s.cur.length ∧ s.memRead s.pc = some 0x27) := by decide

/-- A fault of each of the two statuses, and the record with its own `aux`. -/
theorem witness_FaultsArePreciseAndTerminal :
    (∃ t, (mk [0x2F] [5, 0]).run = .running ∧ exec .div (mk [0x2F] [5, 0]) = .next t ∧ t.run ≠ .running) ∧
    (∃ t, (mkCap 1 1 [0x31] [1]).run = .running ∧ exec (.pushd 1) (mkCap 1 1 [0x31] [1]) = .next t ∧ t.run ≠ .running) ∧
    (∃ t, (mk [0x27, 0x61] []).run = .running ∧ exec (.num (.badChar 0)) (mk [0x27, 0x61] []) = .next t ∧ t.run ≠ .running) :=
  ⟨⟨_, by decide, rfl, by decide⟩, ⟨_, by decide, rfl, by decide⟩, ⟨_, by decide, rfl, by decide⟩⟩

theorem witness_FaultKindsComeFromTheirInstructions :
    ∃ t, (mkCap 2 1 [0x2F] [5, 0]).run = .running ∧
      (mkCap 2 1 [0x2F] [5, 0]).cfg.dcap.holds (mkCap 2 1 [0x2F] [5, 0]).cur.length = true ∧
      exec .div (mkCap 2 1 [0x2F] [5, 0]) = .next t ∧ t.run ≠ .running ∧ t.fault = some ⟨.divZero, 0, 0x2F, 0⟩ :=
  ⟨_, by decide, by decide, rfl, by decide, by decide⟩

theorem witness_FaultCodesAndExitStatuses : ∃ t, (mk [0x2F] [5, 0]).raise .divZero 0 = .next t := ⟨_, rfl⟩

theorem witness_OnlyTheNamedInstructionsWrite :
    (∃ t, exec .add (mk [0x2B] [1, 2]) = .next t) ∧ (∃ t, exec .prev (mk [0x3C] [1]) = .next t) ∧
    (∃ t, exec (.nop 0x20) (mk [0x20] [1]) = .next t) := ⟨⟨_, rfl⟩, ⟨_, rfl⟩, ⟨_, rfl⟩⟩

/-- One instruction of each form of next `pc`. -/
theorem witness_NextPcFollowsTheTable :
    (∃ t, exec .endnz { mk [0x5B, 0x5D] [1] 1 with sq := [0] } = .next t ∧ t.run = .running) ∧
    (∃ t, exec .loopnz (mk [0x5B, 0x5D] [0]) = .next t ∧ t.run = .running) ∧
    (∃ t, exec .loopne (mk [0x7B, 0x7D] [0]) = .next t ∧ t.run = .running) ∧
    (∃ t, exec (.str (.closed [0x61])) (mk [0x22, 0x61, 0x22] []) = .next t ∧ t.run = .running) :=
  ⟨⟨_, rfl, by decide⟩, ⟨_, rfl, by decide⟩, ⟨_, rfl, by decide⟩, ⟨_, rfl, by decide⟩⟩

theorem witness_StepsKeepTheRunParameters : ∃ t, step (mk [0x2B] [1, 2]) = .next t := ⟨_, rfl⟩

theorem witness_InstructionsReadOnlyTheirOwnState : (1 : Fin 256).val ≠ (mk [0x2B] [1, 2]).sel.toNat ∧
    Instr.add ≠ .load ∧ Instr.add ≠ .store ∧ Instr.add ≠ .inb ∧ Instr.add ≠ .loopnz ∧ Instr.add ≠ .endnz ∧
    Instr.add ≠ .loopne ∧ Instr.add ≠ .endne := by decide

/-- A memory that lists one byte. -/
theorem witness_MemoryWriteChangesOneByte : Memory.wf [(3, 0x2B)] ∧ Memory.read [(3, 0x2B)] 3 = 0x2B := by decide

/-- Inside a loop, with the stack full. -/
def inLoop : State := { mkCap 1 1 [0x5B, 0x5D] [1] 1 with sq := [0] }

theorem witness_ResetMakesLegal : inLoop.ProgramLoaded := by unfold State.ProgramLoaded; decide

set_option maxRecDepth 8000 in
theorem inLoop_legal : inLoop.Inv where
  loaded := witness_ResetMakesLegal
  capacity := by unfold State.CapacityHeld; decide
  calls := by unfold State.CallsPointAtOpeners; decide
  pcInRange := by decide
  status := by show inLoop.fault = none; decide

theorem witness_StepKeepsTheInvariant : ∃ t, inLoop.Inv ∧ step inLoop = .next t := ⟨_, inLoop_legal, rfl⟩

theorem witness_LegalRunningMachineSteps : inLoop.Inv ∧ inLoop.run = .running := ⟨inLoop_legal, by decide⟩

end Sys2Proof.Tests
end

section
/-! SUPPORT. The scope of the model (00_scope.md): a program too long for `PCW` has no step. -/

namespace Sys2Proof

/-- With a width given, the program does not fit exactly from `2^PCW` bytes on. -/
theorem Config.fits_eq_false_iff {c : Config} {w : Nat} (hw : c.pcw = some w) (n : Nat) :
    c.fits n = false ↔ 2 ^ w ≤ n := by
  simp [Config.fits, hw]

namespace Machine

/-- What is decided before the fetch is the whole answer of the step. -/
theorem step_of_beforeFetch {s : State} {o : Host.Outcome State Fault Refusal} (h : s.beforeFetch = some o) :
    step s = o := by
  simp [step, h]

/-- The refusal comes before the halt and the fetch: it does not depend on `pc`. -/
theorem State.beforeFetch_of_not_fits {s : State} (hr : s.run = .running) (hf : s.cfg.fits s.plen = false) :
    s.beforeFetch = some (.refused .programTooLong) := by
  simp [State.beforeFetch, hr, hf]

/-- Settles O11: `PLEN ≥ 2^PCW` is the failure of `fits`, which a running machine answers before it fetches. -/
theorem overlongProgramIsRefused : Obligations.OverlongProgramIsRefused := by
  intro s w hrun hw hlen
  have hfits : s.cfg.fits s.plen = false := (Config.fits_eq_false_iff hw s.plen).mpr hlen
  exact step_of_beforeFetch (State.beforeFetch_of_not_fits hrun hfits)

end Machine

end Sys2Proof
end

section
/-! SUPPORT. What the decoder's answer says about the bytes it was read from, and where the scanner can end. -/

namespace Sys2Proof

/-- Every row of the operator table has its own byte as opcode and is one byte long (30_encoding.md R65, R68). -/
theorem operatorTable_rows : ∀ row ∈ operatorTable, row.2.opcode = row.1 ∧ row.2.length = some 1 := by decide

theorem operatorTable_lookup {c : Byte} {i : Instr} (h : operatorTable.lookup c = some i) :
    i.opcode = c ∧ i.length = some 1 := by
  obtain ⟨l, r, hl, -⟩ := List.lookup_eq_some_iff.mp h
  exact operatorTable_rows (c, i) (by simp [hl])

/-- The instruction read at a byte has that byte as its opcode (30_encoding.md R60). -/
theorem opcode_decodeByte (esc : Option Byte) (c : Byte) (tail : List Byte) : (decodeByte esc c tail).opcode = c := by
  rcases decodeByte_cases esc c tail with ⟨-, e⟩ | ⟨-, e⟩ | ⟨hc, e⟩ | ⟨hc, e⟩ | ⟨i, hi, e⟩ | ⟨-, e⟩ <;> rw [e]
  · simp [Instr.opcode]
  · rfl
  · exact hc.symm
  · exact hc.symm
  · exact (operatorTable_lookup hi).1
  · rfl

/-- A closed string literal was read from its body, the closing quote and what follows it. -/
theorem decodeStr_eq_closed {esc : Option Byte} {tail body : List Byte} (h : decodeStr esc tail = .closed body) :
    ∃ rest, tail = body ++ 0x22#8 :: rest := by
  unfold decodeStr at h
  split at h
  · next m hm =>
    cases h
    exact ⟨_, (findQuote_some hm).2.2⟩
  · cases h

/-- The three answers of the numeric scan, each with the bytes it was read from (46_literals.md R142). -/
theorem decodeNum_cases (tail : List Byte) :
    decodeNum tail = .unclosed ∨
    (∃ ds rest, tail = ds ++ 0x27#8 :: rest ∧ decodeNum tail = .closed ds) ∨
    (∃ ds c rest, tail = ds ++ c :: rest ∧ isDigit c = false ∧ c ≠ 0x27#8 ∧ decodeNum tail = .badChar ds.length) := by
  rcases digits_split tail with h | ⟨ds, c, rest, hds, hc, rfl⟩
  · exact .inl (decodeNum_unclosed h)
  · by_cases hq : c = 0x27#8
    · subst hq
      exact .inr (.inl ⟨ds, rest, rfl, decodeNum_closed hds rest⟩)
    · exact .inr (.inr ⟨ds, c, rest, rfl, hc, hq, decodeNum_badChar hds hc hq rest⟩)

/-- A decoded instruction lies within the bytes it was read from (30_encoding.md R68). -/
theorem length_decodeByte_le {esc : Option Byte} {c : Byte} {tail : List Byte} {n : Nat}
    (h : (decodeByte esc c tail).length = some n) : n ≤ tail.length + 1 := by
  rcases decodeByte_cases esc c tail with ⟨-, e⟩ | ⟨-, e⟩ | ⟨-, e⟩ | ⟨-, e⟩ | ⟨i, hi, e⟩ | ⟨-, e⟩ <;> rw [e] at h
  · cases h; omega
  · cases h; omega
  · cases hs : decodeStr esc tail with
    | unclosed => rw [hs] at h; cases h
    | closed body =>
      rw [hs] at h; cases h
      obtain ⟨rest, rfl⟩ := decodeStr_eq_closed hs
      simp
  · rcases decodeNum_cases tail with hn | ⟨ds, rest, rfl, hn⟩ | ⟨ds, b, rest, -, -, -, hn⟩ <;> rw [hn] at h <;> cases h
    simp
  · rw [(operatorTable_lookup hi).2] at h
    cases h; omega
  · cases h; omega

/-- The byte a bad-character literal points at holds neither a digit nor the quote (60_exceptions.md R153). -/
theorem decodeByte_badChar {esc : Option Byte} {c : Byte} {tail : List Byte} {k : Nat}
    (h : decodeByte esc c tail = .num (.badChar k)) :
    ∃ b, tail[k]? = some b ∧ isDigit b = false ∧ b ≠ 0x27#8 := by
  rcases decodeByte_cases esc c tail with ⟨-, e⟩ | ⟨-, e⟩ | ⟨-, e⟩ | ⟨-, e⟩ | ⟨i, hi, e⟩ | ⟨-, e⟩ <;> rw [e] at h
  · cases h
  · cases h
  · cases h
  · rcases decodeNum_cases tail with hn | ⟨ds, rest, -, hn⟩ | ⟨ds, b, rest, rfl, hd, hq, hn⟩ <;> rw [hn] at h <;> cases h
    exact ⟨b, by simp, hd, hq⟩
  · subst h
    exact absurd (operatorTable_lookup hi).2 (by simp [Instr.length])
  · cases h

namespace Machine

/-- The scanner stops inside the bytes it is given. -/
theorem scanBytes_lt {o c : Byte} {depth i m : Nat} {l : List Byte} (h : scanBytes o c depth i l = some m) :
    m < i + l.length := by
  induction l generalizing depth i with
  | nil => cases h
  | cons b l ih =>
    rw [List.length_cons]
    unfold scanBytes at h
    split at h
    · have := ih h; omega
    · split at h
      · split at h
        · cases h; omega
        · have := ih h; omega
      · have := ih h; omega

namespace State

variable {s : State}

/-- The scanner is bounded by `PLEN` (44_loops.md R120). -/
theorem scan_lt_plen {o c : Byte} {start m : Nat} (h : s.scan o c start = some m) : m < s.plen := by
  have hlt := scanBytes_lt h
  rw [progFrom_length] at hlt
  by_cases hs : start < s.plen
  · omega
  · rw [scan, progFrom_eq_nil s (by omega)] at h
    cases h

/-- A fetch that succeeds is inside the program and reads the bytes from `pc` on. -/
theorem fetchInstr_ok {i : Instr} (h : s.fetchInstr = .ok i) :
    s.pc < s.plen ∧ i = decodeByte s.cfg.strEsc (s.prog.read s.pc) (s.progFrom (s.pc + 1)) := by
  by_cases hpc : s.pc < s.plen
  · rw [fetchInstr, progFrom_cons s hpc, decode_cons] at h
    cases h
    exact ⟨hpc, rfl⟩
  · rw [fetchInstr, progFrom_eq_nil s (by omega)] at h
    cases h

/-- The byte at `pc` is the opcode of the instruction fetched there (30_encoding.md R60). -/
theorem memRead_pc_of_fetch {i : Instr} (h : s.fetchInstr = .ok i) : s.memRead s.pc = some i.opcode := by
  obtain ⟨hpc, rfl⟩ := fetchInstr_ok h
  rw [opcode_decodeByte, memRead_isSome_of_lt s hpc]

/-- A fetched instruction ends inside the program (10_state.md R25). -/
theorem pc_add_length_le_of_fetch {i : Instr} {n : Nat} (h : s.fetchInstr = .ok i) (hn : i.length = some n) :
    s.pc + n ≤ s.plen := by
  obtain ⟨hpc, rfl⟩ := fetchInstr_ok h
  have := length_decodeByte_le hn
  rw [progFrom_length] at this
  omega

/-- The bad byte of a fetched numeric literal (60_exceptions.md R153). -/
theorem memRead_badChar_of_fetch {k : Nat} (h : s.fetchInstr = .ok (.num (.badChar k))) :
    ∃ b, s.memRead (s.pc + 1 + k) = some b ∧ isDigit b = false ∧ b ≠ 0x27#8 := by
  obtain ⟨-, hi⟩ := fetchInstr_ok h
  simpa only [progFrom_getElem?] using decodeByte_badChar hi.symm

end State

end Machine

end Sys2Proof
end

section
/-! SUPPORT. The effect of an instruction (`Effect`, Laws/Exec.lean) read field by field: what is written and by whom. -/

namespace Sys2Proof.Machine

open State

variable {i : Instr} {s t : State}

/-- The status of a fault (60_exceptions.md R152). -/
theorem FaultKind.status_eq (k : FaultKind) : k.status = if k = .alloc then .faultAlloc else .faultErr := by
  cases k <;> rfl

theorem FaultKind.status_ne_running (k : FaultKind) : k.status ≠ .running := by
  cases k <;> simp [FaultKind.status]

namespace Effect

/-- Registers are written by `STORE` only (10_state.md R21). -/
theorem reg_eq (h : Effect i s t) (hi : i ≠ .store) : t.reg = s.reg := by
  cases h with
  | stored l x v hi' hc => exact absurd hi' hi
  | entered c hi' hroom => simp
  | returned c l p hi' hc => simp
  | _ => rfl

/-- The selector is written by `NEXT` and `PREV` only (10_state.md R23). -/
theorem sel_eq (h : Effect i s t) (hn : i ≠ .next) (hp : i ≠ .prev) : t.sel = s.sel := by
  cases h with
  | selector x hi =>
    rcases hi with ⟨c, -, rfl⟩ | ⟨hi, -⟩ | ⟨hi, -⟩
    · rfl
    · exact absurd hi hn
    · exact absurd hi hp
  | entered c hi hroom => simp
  | returned c l p hi hc => simp
  | _ => rfl

/-- The square call stack is written by its own brackets only: an entry by the opener, a return by the closer
(10_state.md R24). -/
theorem sq_cases (h : Effect i s t) : t.sq = s.sq ∨
    (i = .loopnz ∧ s.cfg.ccap.isFull s.sq.length = false ∧ t.sq = s.sq ++ [s.pc]) ∨
    (i = .endnz ∧ s.sq = t.sq ++ [t.pc]) := by
  cases h with
  | entered c hi hroom =>
    rcases hi with ⟨rfl, rfl⟩ | ⟨rfl, rfl⟩
    · exact .inr (.inl ⟨rfl, hroom, rfl⟩)
    · exact .inl rfl
  | returned c l p hi hc =>
    rcases hi with ⟨rfl, rfl⟩ | ⟨rfl, rfl⟩
    · exact .inr (.inr ⟨rfl, hc⟩)
    · exact .inl rfl
  | _ => exact .inl rfl

/-- The curly call stack is written by its own brackets only (10_state.md R24). -/
theorem cu_cases (h : Effect i s t) : t.cu = s.cu ∨
    (i = .loopne ∧ s.cfg.ccap.isFull s.cu.length = false ∧ t.cu = s.cu ++ [s.pc]) ∨
    (i = .endne ∧ s.cu = t.cu ++ [t.pc]) := by
  cases h with
  | entered c hi hroom =>
    rcases hi with ⟨rfl, rfl⟩ | ⟨rfl, rfl⟩
    · exact .inl rfl
    · exact .inr (.inl ⟨rfl, hroom, rfl⟩)
  | returned c l p hi hc =>
    rcases hi with ⟨rfl, rfl⟩ | ⟨rfl, rfl⟩
    · exact .inl rfl
    · exact .inr (.inr ⟨rfl, hc⟩)
  | _ => exact .inl rfl

/-- The data stacks are unchanged, or the current one became another list, within its capacity (10_state.md R22, R33). -/
theorem stk_cases (h : Effect i s t) : t.stk = s.stk ∨
    ∃ l, t.stk = (s.setCur l).stk ∧ (s.cfg.dcap.holds s.cur.length = true → s.cfg.dcap.holds l.length = true) := by
  cases h with
  | stack l n hi hn hcap => exact .inr ⟨l, rfl, hcap⟩
  | output l v bs hc hi => exact .inr ⟨l, rfl, fun hcap => Capacity.holds_mono hcap (by simp [hc])⟩
  | input r rest hi hin hroom =>
    exact .inr ⟨s.cur ++ [s.answerByte r], rfl, fun hcap => by simpa using Capacity.holds_succ hcap hroom⟩
  | stored l x v hi hc => exact .inr ⟨l, rfl, fun hcap => Capacity.holds_mono hcap (by simp [hc])⟩
  | entered c hi hroom => exact .inl (by simp)
  | returned c l p hi hc => exact .inl (by simp)
  | _ => exact .inl rfl

/-- The loops, the selector moves and the no-op touch no data stack (10_state.md R22, 44_loops.md R129). -/
theorem stk_eq (h : Effect i s t) (hi : i ∈ [.loopnz, .endnz, .loopne, .endne, .next, .prev] ∨ ∃ c, i = .nop c) :
    t.stk = s.stk := by
  have hnot : onlyStack i = false ∧ i ≠ .outb ∧ i ≠ .outd ∧ i ≠ .inb ∧ i ≠ .store := by
    rcases hi with hi | ⟨c, rfl⟩
    · simp only [List.mem_cons, List.not_mem_nil, or_false] at hi
      rcases hi with rfl | rfl | rfl | rfl | rfl | rfl <;> simp [onlyStack]
    · simp [onlyStack]
  obtain ⟨hstack, houtb, houtd, hinb, hstore⟩ := hnot
  cases h with
  | stack l n hi hn hcap => simp [hi] at hstack
  | output l v bs hc hi => rcases hi with ⟨hi, -⟩ | ⟨hi, -⟩ <;> contradiction
  | input r rest hi hin hroom => contradiction
  | stored l x v hi hc => contradiction
  | entered c hi hroom => simp
  | returned c l p hi hc => simp
  | _ => rfl

/-- The output grows at its end only, by `OUTB` and `OUTD` only (10_state.md R29). -/
theorem out_append (h : Effect i s t) : ∃ bs, t.out = s.out ++ bs ∧ (i ≠ .outb → i ≠ .outd → bs = []) := by
  cases h with
  | output l v bs hc hi =>
    refine ⟨bs, rfl, fun hb hd => ?_⟩
    rcases hi with ⟨hi, -⟩ | ⟨hi, -⟩ <;> contradiction
  | _ => exact ⟨[], by simp, fun _ _ => rfl⟩

/-- Answers are taken by `INB` only (10_state.md R29). -/
theorem input_eq (h : Effect i s t) (hi : i ≠ .inb) : t.input = s.input := by
  cases h with
  | inputLost r rest ch hi' hin hch => exact absurd hi' hi
  | input r rest hi' hin hroom => exact absurd hi' hi
  | entered c hi' hroom => simp
  | returned c l p hi' hc => simp
  | _ => rfl

/-- The program, `PLEN`, `EOFVAL` and the parameters are written by nothing (10_state.md R26, R27). -/
theorem sameRun (h : Effect i s t) : s.SameRun t := by
  cases h with
  | entered c hi hroom => simp [SameRun]
  | returned c l p hi hc => simp [SameRun]
  | _ => exact ⟨rfl, rfl, rfl, rfl⟩

/-- The run status and the record stay, or a fault was taken with `pc` left at the instruction (60_exceptions.md R152,
R153). -/
theorem status_cases (h : Effect i s t) : (t.run = s.run ∧ t.fault = s.fault) ∨
    ∃ r, t.run = r.kind.status ∧ t.fault = some r ∧ t.pc = s.pc ∧ r.pos = s.pc ∧ s.memRead s.pc = some r.ch ∧
      ((r.kind ≠ .numericBadChar ∧ r.aux = s.pc) ∨
        ∃ k, i = .num (.badChar k) ∧ r.kind = .numericBadChar ∧ r.aux = s.pc + 1 + k) := by
  cases h with
  | faulted kind ch hch hk => exact .inr ⟨_, rfl, rfl, rfl, rfl, hch, .inl ⟨hk, rfl⟩⟩
  | badChar k ch hi hch => exact .inr ⟨_, rfl, rfl, rfl, rfl, hch, .inr ⟨k, hi, rfl, rfl⟩⟩
  | inputLost r rest ch hi hin hch => exact .inr ⟨_, rfl, rfl, rfl, rfl, hch, .inl ⟨by simp, rfl⟩⟩
  | entered c hi hroom => exact .inl (by simp)
  | returned c l p hi hc => exact .inl (by simp)
  | _ => exact .inl ⟨rfl, rfl⟩

/-- An instruction whose only effect is on the current stack follows the table's row by going past itself. -/
theorem nextPcRule_of_onlyStack {n : Nat} (hi : onlyStack i = true) (hn : i.length = some n) (hpc : t.pc = s.pc + n) :
    nextPcRule i s t := by
  unfold nextPcRule
  split
  · cases hi
  · cases hi
  · cases hi
  · cases hi
  · exact ⟨n, hn, hpc⟩

/-- Control stays at an instruction that took a fault, and else follows the table of 10_state.md R25. -/
theorem pc_cases (h : Effect i s t) : (t.run ≠ .running ∧ t.pc = s.pc) ∨ nextPcRule i s t := by
  cases h with
  | faulted kind ch hch hk => exact .inl ⟨kind.status_ne_running, rfl⟩
  | badChar k ch hi hch => exact .inl ⟨by simp, rfl⟩
  | inputLost r rest ch hi hin hch => exact .inl ⟨by simp, rfl⟩
  | stack l n hi hn hcap => exact .inr (nextPcRule_of_onlyStack hi hn rfl)
  | selector x hi => rcases hi with ⟨c, rfl, -⟩ | ⟨rfl, -⟩ | ⟨rfl, -⟩ <;> exact .inr ⟨1, rfl, rfl⟩
  | output l v bs hc hi => rcases hi with ⟨rfl, -⟩ | ⟨rfl, -⟩ <;> exact .inr ⟨1, rfl, rfl⟩
  | input r rest hi hin hroom => subst hi; exact .inr ⟨1, rfl, rfl⟩
  | stored l x v hi hc => subst hi; exact .inr ⟨1, rfl, rfl⟩
  | skipped m hi => rcases hi with ⟨rfl, hm⟩ | ⟨rfl, hm⟩ <;> exact .inr (.inr ⟨m, hm, rfl, rfl⟩)
  | entered c hi hroom => rcases hi with ⟨rfl, rfl⟩ | ⟨rfl, rfl⟩ <;> exact .inr (.inl ⟨rfl, rfl⟩)
  | returned c l p hi hc => rcases hi with ⟨rfl, rfl⟩ | ⟨rfl, rfl⟩ <;> exact .inr hc

end Effect

end Sys2Proof.Machine
end

section
/-! SUPPORT. The invariant, part by part: what a step may do to each part of it, and that reset has it. -/

namespace Sys2Proof.Machine

open State

variable {i : Instr} {s t : State}

namespace State

theorem SameRun.plen_eq (h : s.SameRun t) : t.plen = s.plen := h.2.1

theorem SameRun.memRead (h : s.SameRun t) (a : Nat) : t.memRead a = s.memRead a :=
  memRead_congr h.1 h.plen_eq a

/-- The program's form speaks of what is fixed for a run only. -/
theorem ProgramLoaded.of_sameRun (hs : s.ProgramLoaded) (h : s.SameRun t) : t.ProgramLoaded := by
  obtain ⟨hprog, hplen, -, hcfg⟩ := h
  simpa only [ProgramLoaded, hprog, hplen, hcfg] using hs

/-- A record that agrees with `run` and with the program makes the status consistent (60_exceptions.md R152, R153). -/
theorem statusConsistent_of_fault {r : FaultRecord} (hrun : t.run = r.kind.status) (hf : t.fault = some r)
    (hr : t.RecordsFault r) : t.StatusConsistent := by
  by_cases hk : r.kind = .alloc
  · have ha : t.run = .faultAlloc := by rw [hrun, FaultKind.status_eq, if_pos hk]
    rw [StatusConsistent, ha]
    exact ⟨r, hf, hk, hr⟩
  · have he : t.run = .faultErr := by rw [hrun, FaultKind.status_eq, if_neg hk]
    rw [StatusConsistent, he]
    exact ⟨r, hf, hk, hr⟩

theorem statusConsistent_running (hrun : t.run = .running) : t.StatusConsistent ↔ t.fault = none := by
  rw [StatusConsistent, hrun]

/-- The halt changes no part of the invariant but the status, which it makes `HALT_OK` at `PLEN` (70_reset_and_hazards.md
R172). -/
theorem Inv.halt (hs : s.Inv) (hrun : s.run = .running) (hpc : s.pc = s.plen) : s.halt.Inv where
  loaded := hs.loaded
  capacity := hs.capacity
  calls := hs.calls
  pcInRange := hs.pcInRange
  status := ⟨(statusConsistent_running hrun).mp hs.status, hpc⟩

/-- Replacing the current stack by one within its capacity keeps every data stack within it (10_state.md R33). -/
theorem holds_setCur {l : List Byte} (hs : ∀ k : Fin 256, s.cfg.dcap.holds s.stk[k].length = true)
    (hl : s.cfg.dcap.holds l.length = true) (k : Fin 256) : s.cfg.dcap.holds (s.setCur l).stk[k].length = true := by
  by_cases hk : k.val = s.sel.toNat
  · have hcur : (s.setCur l).stk[k] = l := by simp [hk]
    rwa [hcur]
  · have hother : (s.setCur l).stk[k] = s.stk[k] := setCur_stk_ne s l k.isLt hk
    rw [hother]
    exact hs k

theorem CapacityHeld.cur (hs : s.CapacityHeld) : s.cfg.dcap.holds s.cur.length = true :=
  hs.1 s.sel.toFin

end State

namespace Effect

theorem capacityHeld (h : Effect i s t) (hs : s.CapacityHeld) : t.CapacityHeld := by
  obtain ⟨hstk, hsq, hcu⟩ := id hs
  obtain ⟨-, -, -, hcfg⟩ := h.sameRun
  unfold CapacityHeld
  rw [hcfg]
  refine ⟨?_, ?_, ?_⟩
  · rcases h.stk_cases with e | ⟨l, e, hl⟩ <;> rw [e]
    · exact hstk
    · exact holds_setCur hstk (hl hs.cur)
  · rcases h.sq_cases with e | ⟨-, hroom, e⟩ | ⟨-, e⟩
    · rwa [e]
    · simpa [e] using Capacity.holds_succ hsq hroom
    · exact Capacity.holds_mono hsq (by simp [e])
  · rcases h.cu_cases with e | ⟨-, hroom, e⟩ | ⟨-, e⟩
    · rwa [e]
    · simpa [e] using Capacity.holds_succ hcu hroom
    · exact Capacity.holds_mono hcu (by simp [e])

/-- A new call-stack entry is the position of the opener that was fetched; a return only removes one (10_state.md R24). -/
theorem callsPointAtOpeners (h : Effect i s t) (hf : s.fetchInstr = .ok i) (hs : s.CallsPointAtOpeners) :
    t.CallsPointAtOpeners := by
  obtain ⟨hsq, hcu⟩ := hs
  have hpc := memRead_pc_of_fetch hf
  simp only [CallsPointAtOpeners, h.sameRun.memRead]
  constructor
  · rcases h.sq_cases with e | ⟨rfl, -, e⟩ | ⟨-, e⟩
    · rwa [e]
    · rw [e, List.forall_mem_append]
      exact ⟨hsq, by simpa [Instr.opcode] using hpc⟩
    · rw [e, List.forall_mem_append] at hsq
      exact hsq.1
  · rcases h.cu_cases with e | ⟨rfl, -, e⟩ | ⟨-, e⟩
    · rwa [e]
    · rw [e, List.forall_mem_append]
      exact ⟨hcu, by simpa [Instr.opcode] using hpc⟩
    · rw [e, List.forall_mem_append] at hcu
      exact hcu.1

/-- The table's next `pc` is at most `PLEN`: an instruction and a scan end inside the program, and a call stack holds
positions of it (10_state.md R25). -/
theorem pc_le_of_nextPcRule (hf : s.fetchInstr = .ok i) (hs : s.CallsPointAtOpeners) (h : nextPcRule i s t) :
    t.pc ≤ s.plen := by
  have hlen {n : Nat} (hn : i.length = some n) := pc_add_length_le_of_fetch hf hn
  unfold nextPcRule at h
  split at h
  · have := (memRead_eq_some s).mp (hs.1 t.pc (by simp [h]))
    omega
  · have := (memRead_eq_some s).mp (hs.2 t.pc (by simp [h]))
    omega
  · rcases h with ⟨hpc, -⟩ | ⟨m, hm, hpc, -⟩
    · exact hpc ▸ hlen rfl
    · exact hpc ▸ scan_lt_plen hm
  · rcases h with ⟨hpc, -⟩ | ⟨m, hm, hpc, -⟩
    · exact hpc ▸ hlen rfl
    · exact hpc ▸ scan_lt_plen hm
  · obtain ⟨n, hn, hpc⟩ := h
    exact hpc ▸ hlen hn

theorem statusConsistent (h : Effect i s t) (hf : s.fetchInstr = .ok i) (hrun : s.run = .running)
    (hs : s.StatusConsistent) : t.StatusConsistent := by
  rcases h.status_cases with ⟨er, ef⟩ | ⟨r, hr, hfault, hpc, hpos, hch, haux⟩
  · rw [statusConsistent_running (er.trans hrun), ef]
    exact (statusConsistent_running hrun).mp hs
  · refine statusConsistent_of_fault hr hfault ?_
    simp only [RecordsFault, h.sameRun.memRead, hpc]
    refine ⟨hpos, hch, ?_⟩
    rcases haux with ⟨hk, ha⟩ | ⟨k, rfl, hk, ha⟩
    · rw [if_neg hk, ha, hpos]
    · rw [if_pos hk, ha]
      exact ⟨by omega, memRead_badChar_of_fetch hf⟩

/-- An instruction fetched in a legal running state leaves a legal state. -/
theorem inv (h : Effect i s t) (hf : s.fetchInstr = .ok i) (hrun : s.run = .running) (hs : s.Inv) : t.Inv where
  loaded := hs.loaded.of_sameRun h.sameRun
  capacity := h.capacityHeld hs.capacity
  calls := h.callsPointAtOpeners hf hs.calls
  pcInRange := by
    rw [h.sameRun.plen_eq]
    rcases h.pc_cases with ⟨-, hpc⟩ | hpc
    · exact hpc ▸ hs.pcInRange
    · exact pc_le_of_nextPcRule hf hs.calls hpc
  status := h.statusConsistent hf hrun hs.status

end Effect

/-- Settles O50: a step is the halt at `PLEN` or the effect of a fetched instruction, and each keeps the invariant part by
part. -/
theorem stepKeepsTheInvariant : Obligations.StepKeepsTheInvariant := by
  intro s t hs hstep
  obtain ⟨hrun, -, ⟨hpc, rfl⟩ | ⟨-, i, hf, heff⟩⟩ := step_next hstep
  · exact hs.halt hrun hpc
  · exact heff.inv hf hrun hs

end Sys2Proof.Machine
end

section
/-! SUPPORT. Who writes what, the next `pc`, and what is fixed for a run: the whole-machine rules, from the effect of an
instruction. -/

namespace Sys2Proof.Machine

open State

/-- No step writes the program, `PLEN`, `EOFVAL` or the parameters: the halt writes `run` only. -/
theorem step_sameRun {s t : State} (h : step s = .next t) : s.SameRun t := by
  obtain ⟨-, -, ⟨-, rfl⟩ | ⟨-, i, -, heff⟩⟩ := step_next h
  · exact ⟨rfl, rfl, rfl, rfl⟩
  · exact heff.sameRun

/-- Settles O40: the effect of the instruction, one clause per field. -/
theorem onlyTheNamedInstructionsWrite : Obligations.OnlyTheNamedInstructionsWrite := by
  intro i s t hexec
  have h := exec_effect hexec
  refine ⟨h.reg_eq, h.sel_eq, ?sq, ?cu, ?stk, h.stk_eq, h.out_append, h.input_eq, ?status⟩
  case sq =>
    intro ho hc
    rcases h.sq_cases with e | ⟨hi, -⟩ | ⟨hi, -⟩
    · exact e
    · exact absurd hi ho
    · exact absurd hi hc
  case cu =>
    intro ho hc
    rcases h.cu_cases with e | ⟨hi, -⟩ | ⟨hi, -⟩
    · exact e
    · exact absurd hi ho
    · exact absurd hi hc
  case stk =>
    intro k hk
    rcases h.stk_cases with e | ⟨l, e, -⟩
    · rw [e]
    · rw [e]
      exact setCur_stk_ne s l k.isLt hk
  case status =>
    intro hrun
    rcases h.status_cases with ⟨er, ef⟩ | ⟨r, hr, -⟩
    · exact ⟨er ▸ hrun, ef⟩
    · exact absurd (hr.symm.trans hrun) r.kind.status_ne_running

/-- Settles O41: an instruction that leaves the machine running took no fault, so that its row gave the next `pc`. -/
theorem nextPcFollowsTheTable : Obligations.NextPcFollowsTheTable := by
  intro i s t hexec hrun
  rcases (exec_effect hexec).pc_cases with ⟨hstop, -⟩ | hrow
  · exact absurd hrun hstop
  · exact hrow

/-- Settles O42: what a step keeps of the run's parameters, and with them every read of the program. -/
theorem stepsKeepTheRunParameters : Obligations.StepsKeepTheRunParameters := by
  intro s t hstep
  have h := step_sameRun hstep
  exact ⟨h, h.memRead⟩

/-- What is read back of a program loaded from nothing is the list it was loaded from (20_memory.md R41). -/
theorem State.memRead_load (s : State) (bs : List Byte) (a : Nat) : (s.load bs).memRead a = bs[a]? := by
  have hread : (s.load bs).prog.read a = bs[a]?.getD Memory.unlisted := by
    simpa [State.reset] using Memory.read_writeBytes Memory.reset_wf 0 a bs
  by_cases h : a < bs.length
  · rw [memRead_isSome_of_lt _ h, hread]
    simp [h]
  · simp [memRead, h]

/-- Settles O46: the loader writes into the empty memory, which is in canonical form. -/
theorem loadedProgramReadsBack : Obligations.LoadedProgramReadsBack := by
  intro s bs a
  exact ⟨s.memRead_load bs a, rfl, Memory.writeBytes_wf Memory.reset_wf 0 bs⟩

/-- Settles O10: the status is tested before anything else. -/
theorem stoppedMachineTakesNoStep : Obligations.StoppedMachineTakesNoStep := by
  intro s hrun
  exact step_of_beforeFetch (if_pos hrun)

/-- Settles O45: the two vectors hold their reset value at every index; the other fields are given. -/
theorem resetStateHasTheSpecValues : Obligations.ResetStateHasTheSpecValues := by
  refine ⟨fun k => ⟨?_, ?_⟩, rfl, rfl, rfl, rfl, rfl, rfl, rfl⟩
  · simp [State.reset]
  · simp [State.reset]

/-- Settles O48: nothing is loaded, every stack is empty, and the standard parameters bound nothing. -/
theorem resetStateIsLegal : Obligations.ResetStateIsLegal where
  loaded := ⟨Memory.reset_wf, by simp [State.reset], rfl, rfl⟩
  capacity := ⟨fun _ => rfl, rfl, rfl⟩
  calls := ⟨by simp [State.reset], by simp [State.reset]⟩
  pcInRange := le_rfl
  status := rfl

end Sys2Proof.Machine
end

section
/-! SUPPORT. What an instruction does not read: a change of state that it is not given is carried along by it. The change
is written as data (`Change`), and every operation of the machine is shown to commute with it. -/

namespace Sys2Proof.Machine

open State

/-- A change of the state outside `sel`, `pc`, the status and the parameters: what the named fields are replaced by, one
data stack's new contents, and a history put before the output. -/
structure Change where
  reg : Option (Vector Byte 256) := none
  stk : Option (Fin 256 × List Byte) := none
  sq : Option (List Nat) := none
  cu : Option (List Nat) := none
  eofval : Option Byte := none
  input : Option (List InputAnswer) := none
  out : List Byte := []

namespace Change

/-- The new contents of a call stack, if the change has any. -/
def calls (c : Change) : CallStack → Option (List Nat)
  | .square => c.sq
  | .curly => c.cu

/-- The changed data stack, if there is one, is not the one that `x` selects. -/
def SparesStack (c : Change) (x : Byte) : Prop := ∀ k l, c.stk = some (k, l) → k.val ≠ x.toNat

/-- The change touches nothing that `i` is given, when `x` is the selector (10_state.md R21, R22, R24, R27, R29).
A piece of state that the change leaves alone needs no proof. -/
structure NotGivenTo (c : Change) (i : Instr) (x : Byte) : Prop where
  reg : i = .load ∨ i = .store → c.reg = none := by exact fun _ => rfl
  stk : c.SparesStack x := by exact nofun
  square : i = .loopnz ∨ i = .endnz → c.calls .square = none := by exact fun _ => rfl
  curly : i = .loopne ∨ i = .endne → c.calls .curly = none := by exact fun _ => rfl
  eofval : i = .inb → c.eofval = none := by exact fun _ => rfl
  input : i = .inb → c.input = none := by exact fun _ => rfl

end Change

namespace State

/-- The state with the change made. -/
def change (s : State) (c : Change) : State :=
  { s with
    reg := c.reg.getD s.reg
    stk := match c.stk with
      | none => s.stk
      | some (k, l) => s.stk.set k.val l
    sq := c.sq.getD s.sq
    cu := c.cu.getD s.cu
    eofval := c.eofval.getD s.eofval
    input := c.input.getD s.input
    out := c.out ++ s.out }

variable {c : Change} {s t : State}

/-! ### The operations on the changed state -/

theorem cur_change (h : c.SparesStack s.sel) : (s.change c).cur = s.cur := by
  cases hc : c.stk with
  | none => simp [cur, change, hc]
  | some p => simp [cur, change, hc, h p.1 p.2 hc]

theorem setCur_change (h : c.SparesStack s.sel) (l : List Byte) : (s.change c).setCur l = (s.setCur l).change c := by
  cases hc : c.stk with
  | none => simp [setCur, change, hc]
  | some p => simp [setCur, change, hc, Vector.set_comm _ _ (h p.1 p.2 hc)]

theorem emit_change (bs : List Byte) : (s.change c).emit bs = (s.emit bs).change c := by
  simp [emit, change]

theorem readReg_change (h : c.reg = none) (i : Byte) : (s.change c).readReg i = s.readReg i := by
  simp [readReg, change, h]

theorem writeReg_change (h : c.reg = none) (i v : Byte) : (s.change c).writeReg i v = (s.writeReg i v).change c := by
  simp [writeReg, change, h]

theorem calls_change {q : CallStack} (h : c.calls q = none) : (s.change c).calls q = s.calls q := by
  cases q <;> simp only [Change.calls] at h <;> simp [calls, change, h]

theorem setCalls_change {q : CallStack} (h : c.calls q = none) (l : List Nat) :
    (s.change c).setCalls q l = (s.setCalls q l).change c := by
  cases q <;> simp only [Change.calls] at h <;> simp [setCalls, change, h]

theorem raise_change (k : FaultKind) (aux : Nat) :
    (s.change c).raise k aux = mapNext (·.change c) (s.raise k aux) := by
  have hread : (s.change c).memRead (s.change c).pc = s.memRead s.pc := rfl
  unfold raise
  rw [hread]
  cases s.memRead s.pc <;> rfl

/-! ### Bodies

A body whose result on the changed state is its result on the state with the change made, `r' = r.map (·.change c)`. -/

/-- A settled body carries the change along. -/
theorem settle_change {r r' : Except FaultKind State} (h : r' = r.map (·.change c)) :
    (s.change c).settle r' = mapNext (·.change c) (s.settle r) := by
  subst h
  cases r with
  | ok t => rfl
  | error k => exact raise_change k s.pc

/-- Two binds carry a map along when both of their halves do. -/
theorem bind_map {α α' β β' : Type} {x : Except FaultKind α} {x' : Except FaultKind α'} {f : α → Except FaultKind β}
    {f' : α' → Except FaultKind β'} {g : α → α'} {g' : β → β'} (hx : x' = x.map g)
    (hf : ∀ a, x = .ok a → f' (g a) = (f a).map g') : (x' >>= f') = (x >>= f).map g' := by
  subst hx
  cases x with
  | ok a => exact hf a rfl
  | error k => rfl

/-- The same when the first half answers a plain value, which the change does not touch. -/
theorem bind_map_value {α β β' : Type} {x x' : Except FaultKind α} {f : α → Except FaultKind β}
    {f' : α → Except FaultKind β'} {g' : β → β'} (hx : x' = x) (hf : ∀ a, f' a = (f a).map g') :
    (x' >>= f') = (x >>= f).map g' := by
  subst hx
  cases x' with
  | ok a => exact hf a
  | error k => rfl

theorem push_change (h : c.SparesStack s.sel) (v : Byte) : (s.change c).push v = (s.push v).map (·.change c) := by
  have hcfg : (s.change c).cfg = s.cfg := rfl
  unfold push
  rw [cur_change h, setCur_change h, hcfg]
  split <;> rfl

theorem pushBody_change (h : c.SparesStack s.sel) (body : List Byte) :
    (s.change c).pushBody body = (s.pushBody body).map (·.change c) := by
  have hcfg : (s.change c).cfg = s.cfg := rfl
  unfold pushBody
  rw [cur_change h, setCur_change h, hcfg]
  split <;> rfl

theorem pop_change (h : c.SparesStack s.sel) : (s.change c).pop = s.pop.map fun p => (p.1, p.2.change c) := by
  rcases List.eq_nil_or_concat' s.cur with hc | ⟨l, v, hc⟩
  · rw [pop_nil hc, pop_nil ((cur_change h).trans hc)]
    rfl
  · rw [pop_concat hc, pop_concat ((cur_change h).trans hc), setCur_change h]
    rfl

theorem peek_change (h : c.SparesStack s.sel) : (s.change c).peek = s.peek := by
  simp only [peek, cur_change h]

theorem topIsZero_change (h : c.SparesStack s.sel) : (s.change c).topIsZero = s.topIsZero := by
  simp only [topIsZero, peek_change h]

theorem isEmpty_change (h : c.SparesStack s.sel) : (s.change c).isEmpty = s.isEmpty := by
  simp only [isEmpty, cur_change h]

/-! The data-stack primitives leave the selector, so that what is spared before one is spared after it. -/

theorem sel_of_push {v : Byte} (h : s.push v = .ok t) : t.sel = s.sel := by
  obtain ⟨-, rfl⟩ := push_ok h
  rfl

theorem sel_of_pop {v : Byte} (h : s.pop = .ok (v, t)) : t.sel = s.sel := by
  obtain ⟨l, -, rfl⟩ := pop_ok h
  rfl

theorem sel_of_popTwo {a b : Byte} (h : s.popTwo = .ok (a, b, t)) : t.sel = s.sel := by
  obtain ⟨l, -, rfl⟩ := popTwo_ok h
  rfl

theorem popTwo_change (h : c.SparesStack s.sel) :
    (s.change c).popTwo = s.popTwo.map fun p => (p.1, p.2.1, p.2.2.change c) :=
  bind_map (pop_change h) fun ⟨_, _⟩ h1 => bind_map (pop_change (sel_of_pop h1 ▸ h)) fun _ _ => rfl

/-- A push of one value, then any move of `pc`. -/
theorem push_then_setPc_change (h : c.SparesStack s.sel) (v : Byte) (p : Nat) :
    ((s.change c).push v >>= fun u => pure (u.setPc p)) = (s.push v >>= fun u => pure (u.setPc p)).map (·.change c) :=
  bind_map (push_change h v) fun _ _ => rfl

theorem push_then_advance_change (h : c.SparesStack s.sel) (v : Byte) :
    ((s.change c).push v >>= fun u => pure u.advance) = (s.push v >>= fun u => pure u.advance).map (·.change c) :=
  bind_map (push_change h v) fun _ _ => rfl

theorem binop_change (h : c.SparesStack s.sel) (op : Byte → Byte → Except FaultKind Byte) :
    (s.change c).binop op = (s.binop op).map (·.change c) :=
  bind_map (popTwo_change h) fun ⟨_, _, _⟩ h1 => bind_map_value rfl fun r =>
    push_then_advance_change (sel_of_popTwo h1 ▸ h) r

theorem cpush_change {q : CallStack} (h : c.calls q = none) (p : Nat) :
    (s.change c).cpush q p = (s.cpush q p).map (·.change c) := by
  have hcfg : (s.change c).cfg = s.cfg := rfl
  unfold cpush
  rw [calls_change h, setCalls_change h, hcfg]
  split <;> rfl

theorem cpop_change {q : CallStack} (h : c.calls q = none) :
    (s.change c).cpop q = (s.cpop q).map fun p => (p.1, p.2.change c) := by
  rcases List.eq_nil_or_concat' (s.calls q) with hc | ⟨l, p, hc⟩
  · rw [cpop_nil hc, cpop_nil ((calls_change h).trans hc)]
    rfl
  · rw [cpop_concat hc, cpop_concat ((calls_change h).trans hc), setCalls_change h]
    rfl

theorem enterBody_change {q : CallStack} (h : c.calls q = none) :
    (s.change c).enterBody q = (s.enterBody q).map (·.change c) :=
  bind_map (cpush_change h s.pc) fun _ _ => rfl

theorem returnToOpener_change {q : CallStack} (h : c.calls q = none) :
    (s.change c).returnToOpener q = (s.returnToOpener q).map (·.change c) :=
  bind_map (cpop_change h) fun _ _ => rfl

theorem skipBody_change (o e : Byte) : (s.change c).skipBody o e = (s.skipBody o e).map (·.change c) := by
  have hscan : (s.change c).scan o e ((s.change c).pc + 1) = s.scan o e (s.pc + 1) := rfl
  unfold skipBody
  rw [hscan]
  cases s.scan o e (s.pc + 1) <;> rfl

end State

/-! ### The instructions -/

variable {c : Change} {s : State}

theorem execInb_change (hs : c.SparesStack s.sel) (he : c.eofval = none) (hi : c.input = none) :
    execInb (s.change c) = mapNext (·.change c) (execInb s) := by
  have hinput : (s.change c).input = s.input := by simp [change, hi]
  unfold execInb
  rw [hinput]
  cases s.input with
  | nil => rfl
  | cons r rest =>
    have hdrop : (s.change c).dropAnswer rest = (s.dropAnswer rest).change c := by simp [dropAnswer, change, hi]
    have hbyte : (s.change c).answerByte r = s.answerByte r := by cases r <;> simp [answerByte, change, he]
    simp only [hdrop, hbyte]
    exact settle_change (push_then_advance_change (s := s.dropAnswer rest) hs _)

/-- An instruction carries along every change of state that it is not given. -/
theorem exec_change {i : Instr} (h : c.NotGivenTo i s.sel) :
    exec i (s.change c) = mapNext (·.change c) (exec i s) := by
  have hs := h.stk
  cases i with
  | pushd d => exact settle_change (push_then_advance_change hs d)
  | pushl b => exact settle_change (push_then_advance_change hs b)
  | add => exact settle_change (binop_change hs _)
  | sub => exact settle_change (binop_change hs _)
  | mul => exact settle_change (binop_change hs _)
  | div => exact settle_change (binop_change hs _)
  | mod => exact settle_change (binop_change hs _)
  | and => exact settle_change (binop_change hs _)
  | or => exact settle_change (binop_change hs _)
  | xor => exact settle_change (binop_change hs _)
  | drop => exact settle_change (bind_map (pop_change hs) fun _ _ => rfl)
  | dup => exact settle_change (bind_map_value (peek_change hs) fun v => push_then_advance_change hs v)
  | swap =>
    refine settle_change (bind_map (popTwo_change hs) fun ⟨a, b, s2⟩ h2 => ?_)
    have hs2 : c.SparesStack s2.sel := sel_of_popTwo h2 ▸ hs
    exact bind_map (push_change hs2 b) fun s3 h3 => push_then_advance_change (sel_of_push h3 ▸ hs2) a
  | next => rfl
  | prev => rfl
  | outb =>
    refine settle_change (bind_map (pop_change hs) fun ⟨v, t⟩ _ => ?_)
    exact congrArg (fun u => Except.ok (advance u)) (emit_change [v])
  | inb => exact execInb_change hs (h.eofval rfl) (h.input rfl)
  | outd =>
    refine settle_change (bind_map (pop_change hs) fun ⟨v, t⟩ _ => ?_)
    exact congrArg (fun u => Except.ok (advance u)) (emit_change (decimalText v))
  | loopnz =>
    refine settle_change (bind_map_value (topIsZero_change hs) fun b => ?_)
    cases b with
    | true => exact skipBody_change _ _
    | false => exact enterBody_change (h.square (.inl rfl))
  | endnz => exact settle_change (returnToOpener_change (h.square (.inr rfl)))
  | loopne =>
    refine settle_change ?_
    rw [isEmpty_change hs]
    split
    · exact skipBody_change _ _
    · exact enterBody_change (h.curly (.inl rfl))
  | endne => exact settle_change (returnToOpener_change (h.curly (.inr rfl)))
  | store =>
    refine settle_change (bind_map (popTwo_change hs) fun ⟨x, v, t⟩ _ => ?_)
    exact congrArg (fun u => Except.ok (advance u)) (writeReg_change (h.reg (.inr rfl)) x v)
  | load =>
    refine settle_change (bind_map (pop_change hs) fun ⟨x, t⟩ h1 => ?_)
    simp only [readReg_change (h.reg (.inl rfl))]
    exact push_then_advance_change (sel_of_pop h1 ▸ hs) _
  | str lit =>
    cases lit with
    | closed body => exact settle_change (bind_map (pushBody_change hs body) fun _ _ => rfl)
    | unclosed => exact raise_change .unclosedString s.pc
  | num lit =>
    cases lit with
    | closed digits => exact settle_change (push_then_setPc_change hs _ _)
    | badChar k => exact raise_change .numericBadChar (s.pc + 1 + k)
    | unclosed => exact raise_change .unclosedNumeric s.pc
  | nop b => rfl

/-- Settles O43: each replacement is a change that the instruction is not given. -/
theorem instructionsReadOnlyTheirOwnState : Obligations.InstructionsReadOnlyTheirOwnState := by
  intro i s
  refine ⟨fun r hload hstore => ?reg, fun e hinb => ?eofval, fun k l hk => ?stk, fun q ho hc => ?sq, fun q ho hc => ?cu,
    fun o => ?out, fun a hinb => ?input⟩
  case reg => exact exec_change (c := { reg := some r }) { reg := fun h => absurd h (not_or.mpr ⟨hload, hstore⟩) }
  case eofval => exact exec_change (c := { eofval := some e }) { eofval := fun h => absurd h hinb }
  case stk => exact exec_change (c := { stk := some (k, l) }) { stk := fun _ _ h => by cases h; exact hk }
  case sq => exact exec_change (c := { sq := some q }) { square := fun h => absurd h (not_or.mpr ⟨ho, hc⟩) }
  case cu => exact exec_change (c := { cu := some q }) { curly := fun h => absurd h (not_or.mpr ⟨ho, hc⟩) }
  case out => exact exec_change (c := { out := o }) {}
  case input => exact exec_change (c := { input := some a }) { input := fun h => absurd h hinb }

end Sys2Proof.Machine
end

section
/-! PROOFS. The program memory of the model: one written byte (20_memory.md R41, R48). -/

namespace Sys2Proof.Machine

/-- Settles O47: a write keeps the canonical form, and in it the addresses rise, which is all that reading back needs. -/
theorem memoryWriteChangesOneByte : Obligations.MemoryWriteChangesOneByte := by
  intro m a a' b hwf
  have hrising := hwf.1
  exact ⟨Memory.write_wf hwf a b, Memory.read_write hrising a a' b⟩

end Sys2Proof.Machine
end

section
/-! SUPPORT. The decoder against the encoder, class by class: which bytes each class of instruction is read from, and what
the instruction read from them is (30_encoding.md R60 to R68). -/

namespace Sys2Proof

variable {esc : Option Byte} {c : Byte} {tail : List Byte}

/-! ### The byte classes, forwards -/

theorem decodeByte_digit (h : isDigit c = true) : decodeByte esc c tail = .pushd (c - 0x30#8) := if_pos h

theorem decodeByte_letter (h : isLetter c = true) : decodeByte esc c tail = .pushl c := by
  have hd : isDigit c = false := by
    rw [isLetter_iff] at h
    rw [← Bool.not_eq_true, isDigit_iff]
    omega
  simp [decodeByte, hd, h]

/-- The keys of the operator table are in no other class, and each is listed once (30_encoding.md R61, R65). -/
theorem operatorTable_disjoint : ∀ row ∈ operatorTable, isDigit row.1 = false ∧ isLetter row.1 = false ∧
    row.1 ≠ 0x22#8 ∧ row.1 ≠ 0x27#8 ∧ operatorTable.lookup row.1 = some row.2 := by decide

theorem decodeByte_operator {i : Instr} (h : (c, i) ∈ operatorTable) : decodeByte esc c tail = i := by
  obtain ⟨hd, hl, hs, hn, hrow⟩ := operatorTable_disjoint _ h
  simp [decodeByte, hd, hl, hs, hn, hrow]

/-- A filler byte is in no other class (40_push_and_nop.md R82). -/
theorem filler_disjoint : ∀ c : Byte, wfFillerChar c = true → isDigit c = false ∧ isLetter c = false ∧
    c ≠ 0x22#8 ∧ c ≠ 0x27#8 ∧ operatorTable.lookup c = none := by decide

theorem decodeByte_filler (h : wfFillerChar c = true) : decodeByte esc c tail = .nop c := by
  obtain ⟨hd, hl, hs, hn, hrow⟩ := filler_disjoint c h
  simp [decodeByte, hd, hl, hs, hn, hrow]

/-! ### The closed literals, in both directions -/

/-- A string literal closes exactly around a well-formed body that a quote follows (46_literals.md R140). -/
theorem decodeStr_eq_closed_iff {body : List Byte} : decodeStr esc tail = .closed body ↔
    esc ≠ some 0x22#8 ∧ wfStrBody esc body = true ∧ ∃ rest, tail = body ++ 0x22#8 :: rest := by
  constructor
  · intro h
    unfold decodeStr at h
    split at h
    · next m hm =>
      cases h
      obtain ⟨hq, hwf, htail⟩ := findQuote_some hm
      exact ⟨hq, hwf, _, htail⟩
    · cases h
  · rintro ⟨hq, hwf, rest, rfl⟩
    simp [decodeStr, findQuote_of_wf hq body rest hwf]

/-- A numeric literal closes exactly around digits that a quote follows (46_literals.md R142). -/
theorem decodeNum_eq_closed_iff {ds : List Byte} : decodeNum tail = .closed ds ↔
    (∀ d ∈ ds, isDigit d = true) ∧ ∃ rest, tail = ds ++ 0x27#8 :: rest := by
  constructor
  · intro h
    rcases digits_split tail with hall | ⟨es, b, rest, hes, hb, rfl⟩
    · rw [decodeNum_unclosed hall] at h
      cases h
    · by_cases hq : b = 0x27#8
      · subst hq
        rw [decodeNum_closed hes] at h
        cases h
        exact ⟨hes, rest, rfl⟩
      · rw [decodeNum_badChar hes hb hq] at h
        cases h
  · rintro ⟨hds, rest, rfl⟩
    exact decodeNum_closed hds rest

/-! ### Round trips -/

/-- The character of a digit value, read back (30_encoding.md R62). -/
theorem decodeByte_digitChar {d : Byte} (h : d.toNat ≤ 9) : decodeByte esc (0x30#8 + d) tail = .pushd d := by
  have hd : isDigit (0x30#8 + d) = true := isDigit_iff.mpr (by bv_omega)
  rw [decodeByte_digit hd, BitVec.add_comm, BitVec.add_sub_cancel]

/-- The opcode and the trailer of a well-formed instruction are read back as that instruction. -/
theorem decodeByte_opcode_trailer {i : Instr} (h : i.wf esc = true) (rest : List Byte) :
    decodeByte esc i.opcode (i.trailer ++ rest) = i := by
  cases i with
  | pushd d => exact decodeByte_digitChar (of_decide_eq_true h)
  | pushl c => exact decodeByte_letter ((congrFun wfLetterChar_eq c).symm.trans h)
  | nop c => exact decodeByte_filler h
  | str lit =>
    cases lit with
    | unclosed => cases h
    | closed body =>
      obtain ⟨hq, hbody⟩ : esc ≠ some 0x22#8 ∧ wfStrBody esc body = true := by simpa [Instr.wf] using h
      exact congrArg Instr.str (decodeStr_eq_closed_iff.mpr ⟨hq, hbody, rest, by simp [Instr.trailer]⟩)
  | num lit =>
    cases lit with
    | unclosed => cases h
    | badChar k => cases h
    | closed ds =>
      have hds : ∀ d ∈ ds, isDigit d = true := by simpa [Instr.wf, wfDigitChar_eq] using h
      exact congrArg Instr.num (decodeNum_eq_closed_iff.mpr ⟨hds, rest, by simp [Instr.trailer]⟩)
  | _ => exact decodeByte_operator (by decide)

/-- Settles O1: the opcode byte selects the class of the instruction, and the trailer is what the class reads. -/
theorem decodeOfEncodeGivesTheInstruction : Obligations.DecodeOfEncodeGivesTheInstruction := by
  intro esc i rest hwf
  rw [Instr.encode, List.cons_append, decode_cons, decodeByte_opcode_trailer hwf]

theorem operatorTable_trailer : ∀ row ∈ operatorTable, row.2.trailer = [] := by decide

theorem operatorTable_wf (esc : Option Byte) : ∀ row ∈ operatorTable, row.2.wf esc = true := by
  simp [operatorTable, Instr.wf]

/-- An instruction that was read and has a length is well-formed, and its trailer is what follows its first byte. -/
theorem wf_and_trailer_of_decodeByte {i : Instr} {n : Nat} (h : decodeByte esc c tail = i) (hn : i.length = some n) :
    i.wf esc = true ∧ ∃ rest, tail = i.trailer ++ rest := by
  rcases decodeByte_cases esc c tail with ⟨hd, e⟩ | ⟨hl, e⟩ | ⟨-, e⟩ | ⟨-, e⟩ | ⟨j, hj, e⟩ | ⟨hf, e⟩ <;>
    obtain rfl := h.symm.trans e
  · rw [isDigit_iff] at hd
    exact ⟨decide_eq_true (by bv_omega), tail, rfl⟩
  · exact ⟨(congrFun wfLetterChar_eq c).trans hl, tail, rfl⟩
  · cases hs : decodeStr esc tail with
    | unclosed => rw [hs] at hn; cases hn
    | closed body =>
      obtain ⟨hq, hbody, rest, htail⟩ := decodeStr_eq_closed_iff.mp hs
      exact ⟨by simp [Instr.wf, hq, hbody], rest, by simpa [Instr.trailer] using htail⟩
  · cases hs : decodeNum tail with
    | unclosed => rw [hs] at hn; cases hn
    | badChar k => rw [hs] at hn; cases hn
    | closed ds =>
      obtain ⟨hds, rest, htail⟩ := decodeNum_eq_closed_iff.mp hs
      exact ⟨by simpa [Instr.wf, wfDigitChar_eq] using hds, rest, by simpa [Instr.trailer] using htail⟩
  · obtain ⟨l, r, hl, -⟩ := List.lookup_eq_some_iff.mp hj
    have hmem : (c, i) ∈ operatorTable := by simp [hl]
    exact ⟨operatorTable_wf esc _ hmem, tail, by simp [operatorTable_trailer _ hmem]⟩
  · exact ⟨hf, tail, rfl⟩

/-- The encoding of an instruction that has a length is that long (30_encoding.md R60, R68). -/
theorem encode_length {i : Instr} {n : Nat} (h : i.length = some n) : i.encode.length = n := by
  cases i with
  | str lit => exact Laws.EncodeLength.str lit n h
  | num lit => exact Laws.EncodeLength.num lit n h
  | _ => cases h; rfl

/-- Settles O2: the first byte is the opcode, what follows it begins with the trailer, and the encoding is `n` long. -/
theorem decodedBytesAreTheEncoding : Obligations.DecodedBytesAreTheEncoding := by
  intro esc bytes i n hdec hn
  cases bytes with
  | nil => cases hdec
  | cons c tail =>
    have hi : decodeByte esc c tail = i := Except.ok.inj hdec
    obtain ⟨hwf, rest, htail⟩ := wf_and_trailer_of_decodeByte hi hn
    have hop : i.opcode = c := hi ▸ opcode_decodeByte esc c tail
    have hbytes : c :: tail = i.encode ++ rest := by rw [Instr.encode, List.cons_append, hop, htail]
    have hlen := encode_length hn
    refine ⟨hwf, ?_, ?_⟩
    · rw [hbytes, List.length_append]
      omega
    · rw [hbytes, ← hlen, List.drop_left]

/-! ### The opcode map -/

/-- A byte that opens no literal is a whole instruction (30_encoding.md R68). -/
theorem length_decodeByte (hs : c ≠ 0x22#8) (hn : c ≠ 0x27#8) : (decodeByte esc c tail).length = some 1 := by
  rcases decodeByte_cases esc c tail with ⟨-, e⟩ | ⟨-, e⟩ | ⟨hc, -⟩ | ⟨hc, -⟩ | ⟨i, hi, e⟩ | ⟨-, e⟩
  · rw [e]; rfl
  · rw [e]; rfl
  · exact absurd hc hs
  · exact absurd hc hn
  · rw [e]; exact (operatorTable_lookup hi).2
  · rw [e]; rfl

/-- The opcode characters of the statements are the two quotes and the keys of the decoder's table, mnemonic by mnemonic
(30_encoding.md R65). -/
theorem opcodeRows_cases : ∀ row ∈ opcodeRows, row = (0x22#8, "STR") ∨ row = (0x27#8, "NUM") ∨
    ∃ r ∈ operatorTable, r.1 = row.1 ∧ r.2.mnemonic = row.2 := by decide

/-- The converse: no key of the decoder's table is missing. -/
theorem operatorTable_in_opcodeRows : ∀ r ∈ operatorTable, ∃ row ∈ opcodeRows, row.1 = r.1 := by decide

theorem mnemonic_decodeByte {row : Byte × String} (h : row ∈ opcodeRows) :
    (decodeByte esc row.1 tail).mnemonic = row.2 := by
  rcases opcodeRows_cases row h with rfl | rfl | ⟨r, hr, hkey, hname⟩
  · rfl
  · rfl
  · rw [← hkey, decodeByte_operator hr, hname]

/-- A byte outside the digits, the letters and the 24 opcode characters is a no-op (30_encoding.md R65, R66). -/
theorem decodeByte_of_no_row (hd : isDigit c = false) (hl : isLetter c = false) (hrow : ∀ row ∈ opcodeRows, row.1 ≠ c) :
    decodeByte esc c tail = .nop c := by
  rcases decodeByte_cases esc c tail with ⟨h, -⟩ | ⟨h, -⟩ | ⟨rfl, -⟩ | ⟨rfl, -⟩ | ⟨i, hi, -⟩ | ⟨-, e⟩
  · simp [h] at hd
  · simp [h] at hl
  · exact absurd rfl (hrow (0x22#8, "STR") (by decide))
  · exact absurd rfl (hrow (0x27#8, "NUM") (by decide))
  · obtain ⟨l, r, hlr, -⟩ := List.lookup_eq_some_iff.mp hi
    obtain ⟨row, hmem, hkey⟩ := operatorTable_in_opcodeRows (c, i) (by simp [hlr])
    exact absurd hkey (hrow row hmem)
  · exact e

/-- Settles O3: what the first byte gives, class by class. -/
theorem everyByteDecodesToItsRow : Obligations.EveryByteDecodesToItsRow := by
  intro esc c tail
  refine ⟨decodeByte esc c tail, rfl, opcode_decodeByte esc c tail, length_decodeByte,
    fun hd => decodeByte_digit (isDigit_iff.mpr hd), fun hl => decodeByte_letter (isLetter_iff.mpr hl), ?row, ?filler⟩
  case row =>
    rintro row hrow rfl
    exact mnemonic_decodeByte hrow
  case filler =>
    intro hd hu hlow hrow
    have hdigit : isDigit c = false := by rwa [← Bool.not_eq_true, isDigit_iff]
    have hletter : isLetter c = false := by
      rw [← Bool.not_eq_true, isLetter_iff]
      exact not_or.mpr ⟨hu, hlow⟩
    exact decodeByte_of_no_row hdigit hletter hrow

/-- Settles O4: each word is read by the decoder. -/
theorem specWordsDecode : Obligations.SpecWordsDecode := by
  unfold Obligations.SpecWordsDecode
  decide

end Sys2Proof
end

section
/-! SUPPORT. The fetch and the step: inside the program an instruction is always fetched, and it gives a next state unless it
waits for input (30_encoding.md R66, R69). -/

namespace Sys2Proof.Machine

open State

variable {s : State}

/-! ### The fetch -/

theorem State.exists_fetchInstr (h : s.pc < s.plen) : ∃ i, s.fetchInstr = .ok i :=
  ⟨_, by rw [fetchInstr, progFrom_cons s h, decode_cons]⟩

/-- A running machine runs the instruction it fetches: a fetch that succeeds is inside the program. -/
theorem step_eq_exec {i : Instr} (hr : s.run = .running) (hf : s.cfg.fits s.plen = true) (hi : s.fetchInstr = .ok i) :
    step s = exec i s :=
  step_of_fetch hr hf (fetchInstr_ok hi).1.ne hi

/-- Settles O7: the bytes that decode to `i` are what the step fetches from. -/
theorem stepRunsTheDecodedInstruction : Obligations.StepRunsTheDecodedInstruction := by
  intro s i hrun hfits _ hdec
  exact ⟨step_eq_exec hrun hfits hdec, progFrom_getElem? s s.pc⟩

/-- Settles O8: the instruction fetched at `pc` runs, and its opcode is the byte there. -/
theorem everyPositionRunsAnInstruction : Obligations.EveryPositionRunsAnInstruction := by
  intro s hrun hfits hpc
  obtain ⟨i, hi⟩ := exists_fetchInstr hpc
  exact ⟨i, step_eq_exec hrun hfits hi, memRead_pc_of_fetch hi⟩

/-! ### Progress -/

/-- Inside the program a fault has a byte to record, so that it is taken (60_exceptions.md R152). -/
theorem State.exists_raise {ch : Byte} (hch : s.memRead s.pc = some ch) (k : FaultKind) (aux : Nat) :
    ∃ t, s.raise k aux = .next t :=
  ⟨_, raise_of_memRead hch⟩

/-- A body settled inside the program gives a next state, whether it completed or raised. -/
theorem State.exists_settle {ch : Byte} (hch : s.memRead s.pc = some ch) (r : Except FaultKind State) :
    ∃ t, s.settle r = .next t := by
  cases r with
  | ok t => exact ⟨t, rfl⟩
  | error k => exact exists_raise hch k s.pc

/-- Inside the program every instruction gives a next state, but for `INB` without an answer (43_io.md R115). -/
theorem exec_next_or_waits {ch : Byte} (hch : s.memRead s.pc = some ch) (i : Instr) :
    (∃ t, exec i s = .next t) ∨ (i = .inb ∧ s.input = []) := by
  cases i with
  | inb =>
    cases hin : s.input with
    | nil => exact .inr ⟨rfl, rfl⟩
    | cons r rest =>
      have hdrop : (s.dropAnswer rest).memRead (s.dropAnswer rest).pc = some ch := hch
      simp only [exec, execInb, hin]
      exact .inl (exists_settle hdrop _)
  | str lit =>
    cases lit with
    | closed body => exact .inl (exists_settle hch _)
    | unclosed => exact .inl (exists_raise hch _ _)
  | num lit =>
    cases lit with
    | closed digits => exact .inl (exists_settle hch _)
    | badChar k => exact .inl (exists_raise hch _ _)
    | unclosed => exact .inl (exists_raise hch _ _)
  | next => exact .inl ⟨_, rfl⟩
  | prev => exact .inl ⟨_, rfl⟩
  | nop c => exact .inl ⟨_, rfl⟩
  | _ => exact .inl (exists_settle hch _)

/-- The halt (70_reset_and_hazards.md R172). -/
theorem step_at_end (hr : s.run = .running) (hf : s.cfg.fits s.plen = true) (hpc : s.pc = s.plen) :
    step s = .next s.halt :=
  step_of_beforeFetch (by simp [beforeFetch, hr, hf, hpc])

/-- Settles O51: at `PLEN` the step is the halt, and before it the fetched instruction runs or waits. -/
theorem legalRunningMachineSteps : Obligations.LegalRunningMachineSteps := by
  intro s hs hrun
  obtain ⟨-, -, -, hfits⟩ := hs.loaded
  rcases hs.pcInRange.eq_or_lt with hend | hpc
  · exact .inl ⟨_, step_at_end hrun hfits hend⟩
  · obtain ⟨i, hi⟩ := exists_fetchInstr hpc
    have hop := memRead_pc_of_fetch hi
    rw [step_eq_exec hrun hfits hi]
    rcases exec_next_or_waits hop i with hnext | ⟨rfl, hin⟩
    · exact .inl hnext
    · exact .inr ⟨hop, hin⟩

/-! ### The placed word -/

/-- Placing opens `PCW` when the program would not fit it (log entry 13). -/
theorem State.fits_placeAtPc (s : State) (bs : List Byte) :
    (s.placeAtPc bs).cfg.fits (s.placeAtPc bs).plen = true := by
  simp only [placeAtPc]
  split
  · assumption
  · rfl

theorem State.strEsc_placeAtPc (s : State) (bs : List Byte) : (s.placeAtPc bs).cfg.strEsc = s.cfg.strEsc := by
  simp only [placeAtPc]
  split <;> rfl

theorem State.sameData_placeAtPc (s : State) (bs : List Byte) : s.SameData (s.placeAtPc bs) :=
  ⟨rfl, rfl, rfl, rfl, rfl, rfl, rfl⟩

/-- The fetch reads the placed bytes, and nothing after them. -/
theorem State.fetchInstr_placeAtPc (s : State) (bs : List Byte) :
    (s.placeAtPc bs).fetchInstr = decode s.cfg.strEsc bs := by
  have hpc : (s.placeAtPc bs).pc = s.pc := rfl
  rw [fetchInstr, strEsc_placeAtPc, hpc, progFrom_placeAtPc]

theorem decodeTableWord_eq_some {nbits w : Nat} {i : Instr} (h : decodeTableWord nbits w = some i) :
    decode Config.standard.strEsc (tableBytes nbits w) = .ok i := by
  unfold decodeTableWord at h
  split at h
  · next hdec => cases h; exact hdec
  · cases h

/-- Settles O12: the placed state runs, fits, and fetches from the word's bytes. -/
theorem placedTableWordRunsNext : Obligations.PlacedTableWordRunsNext := by
  intro s nbits w i hword hesc
  have hfetch : (s.withFetchWord nbits w).fetchInstr = .ok i := by
    rw [withFetchWord, fetchInstr_placeAtPc, hesc, decodeTableWord_eq_some hword]
  exact ⟨step_eq_exec rfl (fits_placeAtPc s _) hfetch, sameData_placeAtPc s _⟩

end Sys2Proof.Machine
end

section
/-! SUPPORT. Digit push, letter push and the no-op (40_push_and_nop.md): both outcomes of pushing an immediate, and the
fetch from the byte at `pc`. -/

namespace Sys2Proof.Machine

open State

variable {s : State} {v ch : Byte}

/-! ### The immediate push -/

theorem State.settle_pushImmediate_of_room (h : s.cfg.dcap ≠ some s.cur.length) :
    s.settle (s.pushImmediate v) = .next (s.afterStack (s.cur ++ [v]) (s.pc + 1)) := by
  rw [pushImmediate, push_of_room (Capacity.isFull_false_iff.mpr h)]
  rfl

theorem State.settle_pushImmediate_of_full (h : s.cfg.dcap = some s.cur.length) (hch : s.memRead s.pc = some ch) :
    s.settle (s.pushImmediate v) = .next (s.afterFault .alloc ch s.pc) := by
  rw [pushImmediate, push_of_full (Capacity.isFull_iff.mpr h), error_bind, settle_error, raise_eq_afterFault hch]

theorem exec_pushd : exec (.pushd v) s = s.settle (s.pushImmediate v) := rfl
theorem exec_pushl : exec (.pushl v) s = s.settle (s.pushImmediate v) := rfl

/-- Settles O13: both instructions are the immediate push, which the capacity test decides. -/
theorem digitAndLetterPushTheirImmediate : Obligations.DigitAndLetterPushTheirImmediate := by
  refine ⟨?digit, ?letter, fun s v => ⟨?room, ?full⟩⟩
  case digit =>
    intro c hlo hhi esc tail
    rw [decode_cons, decodeByte_digit (isDigit_iff.mpr ⟨hlo, hhi⟩)]
    rfl
  case letter =>
    intro c hletter esc tail
    rw [decode_cons, decodeByte_letter (isLetter_iff.mpr hletter)]
  case room =>
    intro hroom
    rw [exec_pushd, exec_pushl, settle_pushImmediate_of_room hroom]
    exact ⟨rfl, rfl⟩
  case full =>
    intro ch hfull hch
    rw [exec_pushd, exec_pushl, settle_pushImmediate_of_full hfull hch]
    exact ⟨rfl, rfl⟩

/-! ### The no-op -/

theorem exec_nop (c : Byte) : exec (.nop c) s = .next { s with pc := s.pc + 1 } := rfl

/-- The fetch decodes the byte at `pc`, followed by the rest of the program (30_encoding.md R60). -/
theorem State.fetchInstr_of_memRead (h : s.memRead s.pc = some ch) :
    s.fetchInstr = .ok (decodeByte s.cfg.strEsc ch (s.progFrom (s.pc + 1))) := by
  obtain ⟨hpc, rfl⟩ := (memRead_eq_some s).mp h
  rw [fetchInstr, progFrom_cons s hpc, decode_cons]

/-- Settles O14: a filler byte is fetched as the no-op, whose meaning is the advance. -/
theorem fillerByteOnlyAdvances : Obligations.FillerByteOnlyAdvances := by
  refine fun s c => ⟨exec_nop c, fun hrun hfits hread hfiller => ?_⟩
  have hfetch : s.fetchInstr = .ok (.nop c) := by
    rw [fetchInstr_of_memRead hread, decodeByte_filler hfiller]
  rw [step_eq_exec hrun hfits hfetch, exec_nop]

end Sys2Proof.Machine
end

section
/-! SUPPORT. The eight binary operators (41_arithmetic_logic.md): each is `BINOP` (R90) of an operation on unsigned values, and
its byte is a row of the decoder's table. -/

namespace Sys2Proof.Machine

open State

variable {s : State}

theorem decodesAs_of_operatorTable {c : Byte} {i : Instr} (h : (c, i) ∈ operatorTable) : decodesAs c i :=
  fun esc tail => by rw [decode_cons, decodeByte_operator h]

/-! ### The operations on unsigned values -/

theorem add_eq_ofNat (a b : Byte) : a + b = BitVec.ofNat 8 ((a.toNat + b.toNat) % 256) :=
  BitVec.eq_of_toNat_eq (by simp)

/-- Adding 256 before the subtraction keeps the natural number from being cut off at zero (R92). -/
theorem sub_eq_ofNat (a b : Byte) : a - b = BitVec.ofNat 8 ((a.toNat + 256 - b.toNat) % 256) :=
  BitVec.eq_of_toNat_eq (by rw [BitVec.toNat_sub, BitVec.toNat_ofNat]; omega)

theorem mul_eq_ofNat (a b : Byte) : a * b = BitVec.ofNat 8 (a.toNat * b.toNat % 256) :=
  BitVec.eq_of_toNat_eq (by simp)

theorem and_eq_ofNat (a b : Byte) : a &&& b = BitVec.ofNat 8 (a.toNat &&& b.toNat) := by simp [BitVec.ofNat_and]

theorem or_eq_ofNat (a b : Byte) : a ||| b = BitVec.ofNat 8 (a.toNat ||| b.toNat) := by simp [BitVec.ofNat_or]

theorem xor_eq_ofNat (a b : Byte) : a ^^^ b = BitVec.ofNat 8 (a.toNat ^^^ b.toNat) := by simp [BitVec.ofNat_xor]

/-! ### The operators that cannot fault on two entries -/

theorem exec_add : exec .add s = s.settle (s.binop fun a b => .ok (a + b)) := rfl
theorem exec_sub : exec .sub s = s.settle (s.binop fun a b => .ok (a - b)) := rfl
theorem exec_mul : exec .mul s = s.settle (s.binop fun a b => .ok (a * b)) := rfl
theorem exec_and : exec .and s = s.settle (s.binop fun a b => .ok (a &&& b)) := rfl
theorem exec_or : exec .or s = s.settle (s.binop fun a b => .ok (a ||| b)) := rfl
theorem exec_xor : exec .xor s = s.settle (s.binop fun a b => .ok (a ^^^ b)) := rfl

theorem totalOperators_in_operatorTable : ∀ row ∈ totalOperators, (row.1, row.2.1) ∈ operatorTable := by decide

/-- Each row's instruction is `BINOP` of the row's function on the unsigned values. -/
theorem exec_totalOperator {row : Byte × Instr × (Nat → Nat → Nat)} (h : row ∈ totalOperators) :
    exec row.2.1 s = s.settle (s.binop fun a b => .ok (BitVec.ofNat 8 (row.2.2 a.toNat b.toNat))) := by
  simp only [totalOperators, List.mem_cons, List.not_mem_nil, or_false] at h
  rcases h with rfl | rfl | rfl | rfl | rfl | rfl
  · simp only [exec_add, add_eq_ofNat]
  · simp only [exec_sub, sub_eq_ofNat]
  · simp only [exec_mul, mul_eq_ofNat]
  · simp only [exec_and, and_eq_ofNat]
  · simp only [exec_or, or_eq_ofNat]
  · simp only [exec_xor, xor_eq_ofNat]

/-- Settles O15: each row is a row of the decoder's table, and its instruction is a `BINOP` that only short pops stop. -/
theorem binaryOperatorsReplaceTwoByResult : Obligations.BinaryOperatorsReplaceTwoByResult := by
  refine fun row hrow => ⟨decodesAs_of_operatorTable (totalOperators_in_operatorTable row hrow), fun s => ?_⟩
  rw [exec_totalOperator hrow]
  exact ⟨fun l a b hcur hcap => settle_binop_next hcur rfl hcap, fun ch hshort hch => settle_binop_short hshort hch⟩

/-! ### Division -/

theorem exec_div : exec .div s = s.settle (s.binop (guardZero fun a b => a.udiv b)) := rfl
theorem exec_mod : exec .mod s = s.settle (s.binop (guardZero fun a b => a.umod b)) := rfl

theorem guardZero_of_ne {op : Byte → Byte → Byte} {a b : Byte} (h : b ≠ 0) : guardZero op a b = .ok (op a b) := if_neg h

theorem guardZero_zero (op : Byte → Byte → Byte) (a : Byte) : guardZero op a 0 = .error .divZero := rfl

/-- An operation that raises on two entries leaves both on the stack (60_exceptions.md R152). -/
theorem State.settle_binop_opError {op : Byte → Byte → Except FaultKind Byte} {l : List Byte} {a b ch : Byte} {k : FaultKind}
    (hcur : s.cur = l ++ [a, b]) (hop : op a b = .error k) (hch : s.memRead s.pc = some ch) :
    s.settle (s.binop op) = .next (s.afterFault k ch s.pc) := by
  rw [binop_opError hcur hop, settle_error, raise_eq_afterFault hch]

/-- Settles O16: both are `BINOP` of a guarded operation; the pops come before the guard, the guard before the division. -/
theorem divisionIsUnsignedAndZeroFaults : Obligations.DivisionIsUnsignedAndZeroFaults := by
  refine ⟨decodesAs_of_operatorTable (by decide), decodesAs_of_operatorTable (by decide), fun s => ?_⟩
  rw [exec_div, exec_mod]
  refine ⟨?nonzero, ?zero, ?short⟩
  case nonzero =>
    intro l a b hcur hcap hb
    have hdiv : guardZero (fun a b => a.udiv b) a b = .ok (BitVec.ofNat 8 (a.toNat / b.toNat)) :=
      (guardZero_of_ne hb).trans (congrArg _ BitVec.udiv_def)
    have hmod : guardZero (fun a b => a.umod b) a b = .ok (BitVec.ofNat 8 (a.toNat % b.toNat)) :=
      (guardZero_of_ne hb).trans (congrArg _ BitVec.umod_def)
    exact ⟨settle_binop_next hcur hdiv hcap, settle_binop_next hcur hmod hcap⟩
  case zero =>
    intro l a ch hcur hch
    exact ⟨settle_binop_opError hcur (guardZero_zero _ a) hch, settle_binop_opError hcur (guardZero_zero _ a) hch⟩
  case short =>
    intro ch hshort hch
    exact ⟨settle_binop_short hshort hch, settle_binop_short hshort hch⟩

end Sys2Proof.Machine
end

section
/-! SUPPORT. Stack manipulation and stack selection (42_stack_manipulation.md): what `DROP`, `DUP` and `SWAP` answer on each
kind of stack, and where the selector moves. -/

namespace Sys2Proof.Machine

open State

variable {s : State} {l : List Byte} {a b v ch : Byte}

/-! ### DROP -/

theorem exec_drop : exec .drop s = s.settle (s.pop >>= fun p => .ok p.2.advance) := rfl

theorem exec_drop_of_concat (h : s.cur = l ++ [v]) : exec .drop s = .next (s.afterStack l (s.pc + 1)) := by
  rw [exec_drop, pop_concat h]
  rfl

theorem exec_drop_of_empty (h : s.cur = []) (hch : s.memRead s.pc = some ch) :
    exec .drop s = .next (s.afterFault .stackEmpty ch s.pc) := by
  rw [exec_drop, pop_nil h, error_bind, settle_error, raise_eq_afterFault hch]

/-- Settles O17: `DROP` is a pop, which only the empty stack stops. -/
theorem dropRemovesTheTop : Obligations.DropRemovesTheTop :=
  ⟨decodesAs_of_operatorTable (by decide), fun _ =>
    ⟨fun _ _ hcur => exec_drop_of_concat hcur, fun _ hempty hch => exec_drop_of_empty hempty hch⟩⟩

/-! ### DUP -/

/-- `DUP` pushes what it peeks as an immediate is pushed (R80, R101). -/
theorem exec_dup : exec .dup s = s.settle (s.peek >>= s.pushImmediate) := rfl

theorem exec_dup_of_concat (h : s.cur = l ++ [v]) : exec .dup s = s.settle (s.pushImmediate v) := by
  rw [exec_dup, peek_concat h, ok_bind]

theorem exec_dup_of_room (h : s.cur = l ++ [v]) (hroom : s.cfg.dcap ≠ some s.cur.length) :
    exec .dup s = .next (s.afterStack (l ++ [v, v]) (s.pc + 1)) := by
  rw [exec_dup_of_concat h, settle_pushImmediate_of_room hroom, h, List.append_assoc]
  rfl

theorem exec_dup_of_empty (h : s.cur = []) (hch : s.memRead s.pc = some ch) :
    exec .dup s = .next (s.afterFault .stackEmpty ch s.pc) := by
  rw [exec_dup, peek_nil h, error_bind, settle_error, raise_eq_afterFault hch]

theorem exec_dup_of_full (h : s.cur ≠ []) (hfull : s.cfg.dcap = some s.cur.length) (hch : s.memRead s.pc = some ch) :
    exec .dup s = .next (s.afterFault .alloc ch s.pc) := by
  rw [exec_dup_of_concat (List.dropLast_append_getLast h).symm, settle_pushImmediate_of_full hfull hch]

/-- Settles O18: the peek, then the capacity test of the push, decide between the three outcomes. -/
theorem dupCopiesTheTop : Obligations.DupCopiesTheTop :=
  ⟨decodesAs_of_operatorTable (by decide), fun _ =>
    ⟨fun _ _ hcur hroom => exec_dup_of_room hcur hroom, fun _ hempty hch => exec_dup_of_empty hempty hch,
      fun _ hcur hfull hch => exec_dup_of_full hcur hfull hch⟩⟩

/-! ### SWAP -/

/-- `SWAP` pushes the old top, then the other entry as an immediate is pushed. -/
theorem exec_swap : exec .swap s =
    s.settle (s.popTwo >>= fun p => p.2.2.push p.2.1 >>= fun t => t.pushImmediate p.1) := rfl

/-- Neither push finds the stack full, because two entries were there (R102). -/
theorem exec_swap_of_concat (h : s.cur = l ++ [a, b]) (hcap : s.cfg.dcap.holds s.cur.length = true) :
    exec .swap s = .next (s.afterStack (l ++ [b, a]) (s.pc + 1)) := by
  have hroom : (s.setCur l).cfg.dcap.isFull (s.setCur l).cur.length = false :=
    Capacity.not_full_of_lt hcap (by simp [h])
  have hroom' : (s.setCur (l ++ [b])).cfg.dcap.isFull (s.setCur (l ++ [b])).cur.length = false :=
    Capacity.not_full_of_lt hcap (by simp [h])
  simp [exec_swap, popTwo_concat h, push_of_room hroom, pushImmediate, push_of_room hroom', setCur_advance_eq]

theorem exec_swap_of_short (h : s.cur.length < 2) (hch : s.memRead s.pc = some ch) :
    exec .swap s = .next (s.afterFault .stackEmpty ch s.pc) := by
  rw [exec_swap, popTwo_short h, error_bind, settle_error, raise_eq_afterFault hch]

/-- Settles O19: `SWAP` is two pops, which a short stack stops, and two pushes into the room they leave. -/
theorem swapExchangesTheTopTwo : Obligations.SwapExchangesTheTopTwo :=
  ⟨decodesAs_of_operatorTable (by decide), fun _ =>
    ⟨fun _ _ _ hcur hcap => exec_swap_of_concat hcur hcap, fun _ hshort hch => exec_swap_of_short hshort hch⟩⟩

/-! ### Restoring the stack -/

/-- A stack with two entries ends in two named ones. -/
theorem State.exists_cur_concat_pair (h : 2 ≤ s.cur.length) : ∃ l a b, s.cur = l ++ [a, b] := by
  have hlen : (s.cur.drop (s.cur.length - 2)).length = 2 := by rw [List.length_drop]; omega
  obtain ⟨a, b, hab⟩ := List.length_eq_two.mp hlen
  exact ⟨s.cur.take (s.cur.length - 2), a, b, by rw [← hab, List.take_append_drop]⟩

/-- Settles O20: the second instruction finds the stack the first one left and puts back the one that was there. -/
theorem dupDropAndSwapSwapRestore : Obligations.DupDropAndSwapSwapRestore := by
  refine fun s => ⟨fun hne hroom => ?dupDrop, fun htwo hcap => ?swapSwap⟩
  case dupDrop =>
    obtain ⟨l, v, hcur⟩ : ∃ l v, s.cur = l ++ [v] := ⟨_, _, (List.dropLast_append_getLast hne).symm⟩
    refine ⟨_, exec_dup_of_room hcur hroom, ?_⟩
    have hdup : (s.afterStack (l ++ [v, v]) (s.pc + 1)).cur = s.cur ++ [v] := by simp [hcur]
    rw [exec_drop_of_concat hdup, afterStack_afterStack, afterStack_pc, afterStack_self]
  case swapSwap =>
    obtain ⟨l, a, b, hcur⟩ := exists_cur_concat_pair htwo
    refine ⟨_, exec_swap_of_concat hcur hcap, ?_⟩
    have hcap' : (s.afterStack (l ++ [b, a]) (s.pc + 1)).cfg.dcap.holds
        (s.afterStack (l ++ [b, a]) (s.pc + 1)).cur.length = true := by
      simpa [hcur] using hcap
    rw [exec_swap_of_concat (cur_afterStack s _ _) hcap', afterStack_afterStack, afterStack_pc, ← hcur, afterStack_self]

/-! ### The selector -/

theorem exec_next : exec .next s = .next { s with sel := s.sel + 1#8, pc := s.pc + 1 } := rfl
theorem exec_prev : exec .prev s = .next { s with sel := s.sel - 1#8, pc := s.pc + 1 } := rfl

/-- Settles O21: adding and subtracting 1 on bytes is modulo 256, and each undoes the other. -/
theorem selectorMovesModulo256 : Obligations.SelectorMovesModulo256 := by
  refine ⟨decodesAs_of_operatorTable (by decide), decodesAs_of_operatorTable (by decide), fun s => ⟨?next, ?prev⟩⟩
  case next =>
    refine ⟨_, exec_next, rfl, BitVec.toNat_add s.sel 1#8, ?_⟩
    rw [exec_prev, BitVec.add_sub_cancel]
  case prev =>
    have hsel : (s.sel - 1#8).toNat = (s.sel.toNat + 255) % 256 := by
      rw [BitVec.toNat_sub, Nat.add_comm]
      rfl
    refine ⟨_, exec_prev, rfl, hsel, ?_⟩
    rw [exec_next, BitVec.sub_add_cancel]

end Sys2Proof.Machine
end

section
/-! SUPPORT. Input and output (43_io.md): `OUTB` and `OUTD` emit the bytes of a popped entry, and `INB` pushes an answer as an
immediate is pushed. -/

namespace Sys2Proof.Machine

open State

variable {s : State} {l : List Byte} {v ch : Byte} {r : InputAnswer} {rest : List InputAnswer}

/-! ### Emitting the top -/

/-- The shape of R111 and R113: pop an entry, emit the bytes `text` gives it, fall through. -/
def State.emitTop (s : State) (text : Byte → List Byte) : Except FaultKind State :=
  s.pop >>= fun p => .ok (p.2.emit (text p.1)).advance

theorem exec_outb : exec .outb s = s.settle (s.emitTop fun v => [v]) := rfl
theorem exec_outd : exec .outd s = s.settle (s.emitTop decimalText) := rfl

theorem State.settle_emitTop_of_concat (text : Byte → List Byte) (h : s.cur = l ++ [v]) :
    s.settle (s.emitTop text) = .next { s.afterStack l (s.pc + 1) with out := s.out ++ text v } := by
  rw [emitTop, pop_concat h]
  rfl

/-- The pop comes first, so that a fault emits nothing (60_exceptions.md R152). -/
theorem State.settle_emitTop_of_empty (text : Byte → List Byte) (h : s.cur = []) (hch : s.memRead s.pc = some ch) :
    s.settle (s.emitTop text) = .next (s.afterFault .stackEmpty ch s.pc) := by
  rw [emitTop, pop_nil h, error_bind, settle_error, raise_eq_afterFault hch]

/-- Settles O22: `OUTB` emits the popped byte itself. -/
theorem outbEmitsTheTop : Obligations.OutbEmitsTheTop := by
  refine ⟨decodesAs_of_operatorTable (by decide), fun s => ?_⟩
  rw [exec_outb]
  exact ⟨fun _ _ hcur => settle_emitTop_of_concat _ hcur, fun _ hempty hch => settle_emitTop_of_empty _ hempty hch⟩

/-! ### The decimal text -/

/-- A digit's byte is the code of the library's digit character. -/
theorem digitChar_eq_ofNat {n : Nat} (h : n < 10) : digitChar n = BitVec.ofNat 8 n.digitChar.toNat := by
  rw [Nat.toNat_digitChar_of_lt_ten h, digitChar]

/-- A byte has one, two or three digits, and the library splits the last one off each time. -/
theorem decimal_eq_toDigits (v : Byte) :
    decimal v = (Nat.toDigits 10 v.toNat).map fun c => BitVec.ofNat 8 c.toNat := by
  have hv : v.toNat < 256 := v.isLt
  have hlast : v.toNat % 10 < 10 := Nat.mod_lt _ (by decide)
  have htens : v.toNat / 10 % 10 < 10 := Nat.mod_lt _ (by decide)
  rw [decimal, digitChar_eq_ofNat hlast, digitChar_eq_ofNat htens]
  rcases Nat.lt_or_ge v.toNat 10 with hone | htwo
  · have hno : ¬100 ≤ v.toNat := by omega
    simp [Nat.toDigits_of_lt_base, Nat.mod_eq_of_lt, hone, hno]
  rcases Nat.lt_or_ge v.toNat 100 with hlt | hthree
  · have hhead : v.toNat / 10 < 10 := by omega
    simp [Nat.toDigits_of_base_le (by decide) htwo, Nat.toDigits_of_lt_base hhead, Nat.mod_eq_of_lt hhead, htwo, hlt]
  · have hrest : 10 ≤ v.toNat / 10 := by omega
    have hhead : v.toNat / 10 / 10 < 10 := by omega
    have hhundreds : v.toNat / 100 = v.toNat / 10 / 10 := by omega
    simp [Nat.toDigits_of_base_le (by decide) htwo, Nat.toDigits_of_base_le (by decide) hrest,
      Nat.toDigits_of_lt_base hhead, htwo, hthree, hhundreds, digitChar_eq_ofNat hhead]

/-- Settles O23: `OUTD` emits the decimal text of the popped byte, whose digits are the library's. -/
theorem outdEmitsDecimalAndSpace : Obligations.OutdEmitsDecimalAndSpace := by
  refine ⟨decodesAs_of_operatorTable (by decide), fun s => ?_⟩
  rw [exec_outd]
  refine ⟨fun l v hcur => ?_, fun ch hempty hch => settle_emitTop_of_empty _ hempty hch⟩
  rw [settle_emitTop_of_concat _ hcur, decimalText, decimal_eq_toDigits, List.append_assoc]
  rfl

/-! ### INB -/

theorem exec_inb_of_noAnswer (h : s.input = []) : exec .inb s = .fault .inputWait := by
  rw [exec, execInb, h]

/-- The rest of `INB` works on the state whose answer is consumed, so that a fault too finds it gone (R112, D20). -/
theorem exec_inb_of_answer (h : s.input = r :: rest) :
    exec .inb s = (s.dropAnswer rest).settle ((s.dropAnswer rest).pushImmediate (s.answerByte r)) := by
  rw [exec, execInb, h]
  rfl

theorem exec_inb_of_room (h : s.input = r :: rest) (hroom : s.cfg.dcap ≠ some s.cur.length) :
    exec .inb s = .next { s.afterStack (s.cur ++ [s.answerByte r]) (s.pc + 1) with input := rest } := by
  have hroom' : (s.dropAnswer rest).cfg.dcap ≠ some (s.dropAnswer rest).cur.length := hroom
  rw [exec_inb_of_answer h, settle_pushImmediate_of_room hroom']
  rfl

theorem exec_inb_of_full (h : s.input = r :: rest) (hfull : s.cfg.dcap = some s.cur.length)
    (hch : s.memRead s.pc = some ch) : exec .inb s = .next { s.afterFault .alloc ch s.pc with input := rest } := by
  have hfull' : (s.dropAnswer rest).cfg.dcap = some (s.dropAnswer rest).cur.length := hfull
  have hch' : (s.dropAnswer rest).memRead (s.dropAnswer rest).pc = some ch := hch
  rw [exec_inb_of_answer h, settle_pushImmediate_of_full hfull' hch']
  rfl

/-- Settles O24: the byte pushed is the answer's, and the capacity test decides whether it is pushed or lost. -/
theorem inbPushesTheAnswer : Obligations.InbPushesTheAnswer :=
  ⟨decodesAs_of_operatorTable (by decide), fun _ _ =>
    ⟨fun _ hin hroom => exec_inb_of_room hin hroom, fun hin hroom => exec_inb_of_room hin hroom,
      fun _ _ hin hfull hch => exec_inb_of_full hin hfull hch⟩⟩

/-- Settles O25: the added answer is the oldest one, because there was none. -/
theorem inbWaitsForAnAnswer : Obligations.InbWaitsForAnAnswer := by
  refine fun s r hin => ⟨exec_inb_of_noAnswer hin, fun hroom => ?_⟩
  have hin' : (s.answer r).input = [r] := by rw [answer_input, hin, List.nil_append]
  have hroom' : (s.answer r).cfg.dcap ≠ some (s.answer r).cur.length := hroom
  exact ⟨_, exec_inb_of_room hin' hroom', rfl, rfl⟩

end Sys2Proof.Machine
end

section
/-! SUPPORT. The bracket-matching scanner (44_loops.md R120): one equation per kind of byte it meets, and the offset it stops
at, told by counting the delimiters up to each offset. -/

namespace Sys2Proof.Machine

variable {o c b : Byte} {n depth i k m : Nat} {l : List Byte}

/-! ### The scan, byte by byte -/

theorem scanBytes_opener : scanBytes o c depth i (o :: l) = scanBytes o c (depth + 1) (i + 1) l := by simp [scanBytes]

theorem scanBytes_lastCloser (hoc : o ≠ c) : scanBytes o c 1 i (c :: l) = some i := by simp [scanBytes, hoc.symm]

theorem scanBytes_innerCloser (hoc : o ≠ c) :
    scanBytes o c (n + 2) i (c :: l) = scanBytes o c (n + 1) (i + 1) l := by
  simp [scanBytes, hoc.symm]

theorem scanBytes_other (ho : b ≠ o) (hc : b ≠ c) :
    scanBytes o c depth i (b :: l) = scanBytes o c depth (i + 1) l := by
  simp [scanBytes, ho, hc]

/-! ### The balancing offset -/

/-- With `n` nested openers open before `l`, the byte at offset `k` is a closer, and the first one at which the closers
outnumber all the openers (44_loops.md R120). -/
def BalancesAt (o c : Byte) (n : Nat) (l : List Byte) (k : Nat) : Prop :=
  l[k]? = some c ∧ (l.take (k + 1)).count c = (l.take (k + 1)).count o + (n + 1) ∧
    ∀ j ≤ k, (l.take j).count c ≤ (l.take j).count o + n

theorem not_balancesAt_nil : ¬ BalancesAt o c n [] k := by simp [BalancesAt]

theorem balancesAt_zero (hoc : o ≠ c) : BalancesAt o c n (b :: l) 0 ↔ b = c ∧ n = 0 := by
  constructor
  · rintro ⟨hb, hcount, -⟩
    obtain rfl : b = c := by simpa using hb
    have hone : 1 = n + 1 := by simpa [hoc.symm] using hcount
    exact ⟨rfl, by omega⟩
  · rintro ⟨rfl, rfl⟩
    simp [BalancesAt, hoc.symm]

/-- The offset 0, split off from the offsets up to `k + 1`. -/
theorem forall_le_succ_iff {p : Nat → Prop} : (∀ j ≤ k + 1, p j) ↔ p 0 ∧ ∀ j ≤ k, p (j + 1) := by
  rw [← Nat.and_forall_add_one]
  simp only [Nat.zero_le, Nat.add_le_add_iff_right, forall_const]

theorem balancesAt_succ_opener (hoc : o ≠ c) : BalancesAt o c n (o :: l) (k + 1) ↔ BalancesAt o c (n + 1) l k := by
  simp [BalancesAt, forall_le_succ_iff, hoc, Nat.add_assoc, Nat.add_comm 1]

theorem balancesAt_succ_closer (hoc : o ≠ c) :
    BalancesAt o c (n + 1) (c :: l) (k + 1) ↔ BalancesAt o c n l k := by
  simp [BalancesAt, forall_le_succ_iff, hoc.symm, ← Nat.add_assoc]

/-- After the closer of depth 1, closers outnumber openers already. -/
theorem not_balancesAt_succ_lastCloser (hoc : o ≠ c) : ¬ BalancesAt o c 0 (c :: l) (k + 1) := by
  rintro ⟨-, -, hle⟩
  have := hle 1 (by omega)
  simp [hoc.symm] at this

theorem balancesAt_succ_other (ho : b ≠ o) (hc : b ≠ c) :
    BalancesAt o c n (b :: l) (k + 1) ↔ BalancesAt o c n l k := by
  simp [BalancesAt, forall_le_succ_iff, ho, hc]

theorem exists_add_balancesAt_cons :
    (∃ k, m = i + k ∧ BalancesAt o c n (b :: l) k) ↔
      (m = i ∧ BalancesAt o c n (b :: l) 0) ∨ ∃ k, m = i + 1 + k ∧ BalancesAt o c n (b :: l) (k + 1) := by
  rw [← Nat.or_exists_add_one]
  simp [Nat.add_assoc, Nat.add_comm 1]

/-- The depth of the scan is one more than the number of nested openers open (44_loops.md R120). -/
theorem scanBytes_eq_some_iff (hoc : o ≠ c) :
    scanBytes o c (n + 1) i l = some m ↔ ∃ k, m = i + k ∧ BalancesAt o c n l k := by
  induction l generalizing n i with
  | nil => simp [scanBytes, not_balancesAt_nil]
  | cons b l ih =>
    rw [exists_add_balancesAt_cons, balancesAt_zero hoc]
    by_cases hbo : b = o
    · subst hbo
      simp [scanBytes_opener, ih, balancesAt_succ_opener hoc, hoc]
    by_cases hbc : b = c
    · subst hbc
      cases n with
      | zero => simp [scanBytes_lastCloser hoc, not_balancesAt_succ_lastCloser hoc, eq_comm]
      | succ n => simp [scanBytes_innerCloser hoc, ih, balancesAt_succ_closer hoc]
    · simp [scanBytes_other hbo hbc, ih, balancesAt_succ_other hbo hbc, hbc]

/-- Settles O26: the scan starts at depth 1, with no opener open, and offsets count from its start. -/
theorem scanFindsTheBalancingCloser : Obligations.ScanFindsTheBalancingCloser := by
  intro s o c start m hoc
  rw [State.scan, scanBytes_eq_some_iff hoc]
  refine exists_congr fun k => and_congr_right fun hm => ?_
  rw [BalancesAt, State.progFrom_getElem?, ← hm]
  rfl

end Sys2Proof.Machine
end

section
/-! SUPPORT. The loops (44_loops.md): an opener's entry and skip and a closer's return, each with its fault, and what the
openers' conditions choose between. -/

namespace Sys2Proof.Machine

open State

variable {s t : State} {c : CallStack} {l : List Byte} {v ch : Byte}

/-! ### Entry, skip and return -/

theorem State.settle_enterBody_of_room (h : s.cfg.ccap ≠ some (s.calls c).length) :
    s.settle (s.enterBody c) = .next (s.setCalls c (s.calls c ++ [s.pc])).advance := by
  rw [enterBody, cpush_of_room (Capacity.isFull_false_iff.mpr h)]
  rfl

theorem State.settle_enterBody_of_full (h : s.cfg.ccap = some (s.calls c).length) (hch : s.memRead s.pc = some ch) :
    s.settle (s.enterBody c) = .next (s.afterFault .alloc ch s.pc) := by
  rw [enterBody, cpush_of_full (Capacity.isFull_iff.mpr h), error_bind, settle_error, raise_eq_afterFault hch]

theorem State.settle_skipBody_found {o e : Byte} {m : Nat} (h : s.scan o e (s.pc + 1) = some m) :
    s.settle (s.skipBody o e) = .next { s with pc := m + 1 } := by
  rw [skipBody_found h]
  rfl

theorem State.settle_skipBody_notFound {o e : Byte} (h : s.scan o e (s.pc + 1) = none) (hch : s.memRead s.pc = some ch) :
    s.settle (s.skipBody o e) = .next (s.afterFault .unmatchedOpen ch s.pc) := by
  rw [skipBody_notFound h, settle_error, raise_eq_afterFault hch]

theorem State.settle_returnToOpener_of_concat {q : List Nat} {p : Nat} (h : s.calls c = q ++ [p]) :
    s.settle (s.returnToOpener c) = .next ((s.setCalls c q).setPc p) := by
  rw [returnToOpener, cpop_concat h]
  rfl

theorem State.settle_returnToOpener_of_empty (h : s.calls c = []) (hch : s.memRead s.pc = some ch) :
    s.settle (s.returnToOpener c) = .next (s.afterFault .unmatchedClose ch s.pc) := by
  rw [returnToOpener, cpop_nil h, error_bind, settle_error, raise_eq_afterFault hch]

/-! ### LOOPNZ -/

theorem exec_loopnz : exec .loopnz s =
    s.settle (s.topIsZero >>= fun z => if z = true then s.skipBody 0x5B#8 0x5D#8 else s.enterBody .square) := rfl

theorem exec_loopnz_of_nonzero (h : s.cur = l ++ [v]) (hv : v ≠ 0) :
    exec .loopnz s = s.settle (s.enterBody .square) := by
  have hz : (v == 0#8) = false := beq_false_of_ne hv
  rw [exec_loopnz, topIsZero_concat h, hz]
  rfl

theorem exec_loopnz_of_zero (h : s.cur = l ++ [0]) : exec .loopnz s = s.settle (s.skipBody 0x5B#8 0x5D#8) := by
  rw [exec_loopnz, topIsZero_concat h]
  rfl

theorem exec_loopnz_of_empty (h : s.cur = []) (hch : s.memRead s.pc = some ch) :
    exec .loopnz s = .next (s.afterFault .stackEmpty ch s.pc) := by
  rw [exec_loopnz, topIsZero_nil h, error_bind, settle_error, raise_eq_afterFault hch]

/-- Settles O27: the peeked top chooses between the entry and the skip, and each has its own fault. -/
theorem loopnzEntersOrSkips : Obligations.LoopnzEntersOrSkips := by
  refine ⟨decodesAs_of_operatorTable (by decide), fun s => ⟨?enter, ?skip, ?empty, ?unmatched, ?full⟩⟩
  case enter => exact fun _ _ hcur hv hroom => (exec_loopnz_of_nonzero hcur hv).trans (settle_enterBody_of_room hroom)
  case skip => exact fun _ _ hcur hm => (exec_loopnz_of_zero hcur).trans (settle_skipBody_found hm)
  case empty => exact fun _ hempty hch => exec_loopnz_of_empty hempty hch
  case unmatched => exact fun _ _ hcur hnone hch => (exec_loopnz_of_zero hcur).trans (settle_skipBody_notFound hnone hch)
  case full => exact fun _ _ _ hcur hv hfull hch => (exec_loopnz_of_nonzero hcur hv).trans (settle_enterBody_of_full hfull hch)

/-! ### LOOPNE -/

theorem exec_loopne_of_empty (h : s.cur = []) : exec .loopne s = s.settle (s.skipBody 0x7B#8 0x7D#8) := by
  rw [exec, execLoopne, if_pos (isEmpty_eq_true_iff.mpr h)]

theorem exec_loopne_of_nonempty (h : s.cur ≠ []) : exec .loopne s = s.settle (s.enterBody .curly) := by
  rw [exec, execLoopne, if_neg (isEmpty_eq_true_iff.not.mpr h)]

/-- Settles O28: the emptiness test chooses between the skip and the entry, and cannot raise itself. -/
theorem loopneEntersOrSkips : Obligations.LoopneEntersOrSkips := by
  refine ⟨decodesAs_of_operatorTable (by decide), fun s => ⟨?enter, ?skip, ?unmatched, ?full⟩⟩
  case enter => exact fun hcur hroom => (exec_loopne_of_nonempty hcur).trans (settle_enterBody_of_room hroom)
  case skip => exact fun _ hempty hm => (exec_loopne_of_empty hempty).trans (settle_skipBody_found hm)
  case unmatched => exact fun _ hempty hnone hch => (exec_loopne_of_empty hempty).trans (settle_skipBody_notFound hnone hch)
  case full => exact fun _ hcur hfull hch => (exec_loopne_of_nonempty hcur).trans (settle_enterBody_of_full hfull hch)

/-! ### The closers -/

theorem exec_endnz_of_concat {q : List Nat} {p : Nat} (h : s.sq = q ++ [p]) :
    exec .endnz s = .next { s with sq := q, pc := p } :=
  settle_returnToOpener_of_concat (c := .square) h

theorem exec_endne_of_concat {q : List Nat} {p : Nat} (h : s.cu = q ++ [p]) :
    exec .endne s = .next { s with cu := q, pc := p } :=
  settle_returnToOpener_of_concat (c := .curly) h

/-- Settles O29: both closers are the return, each to its own call stack. -/
theorem closersReturnToTheirCallStack : Obligations.ClosersReturnToTheirCallStack :=
  ⟨decodesAs_of_operatorTable (by decide), decodesAs_of_operatorTable (by decide), fun _ =>
    ⟨fun _ _ hsq => exec_endnz_of_concat hsq, fun _ _ hcu => exec_endne_of_concat hcu,
      fun _ hempty hch => settle_returnToOpener_of_empty (c := .square) hempty hch,
      fun _ hempty hch => settle_returnToOpener_of_empty (c := .curly) hempty hch⟩⟩

/-! ### The loop mechanism -/

/-- An opener that changed its call stack entered its body (44_loops.md R121). -/
theorem sq_of_loopnz (h : exec .loopnz s = .next t) (hne : t.sq ≠ s.sq) : t.sq = s.sq ++ [s.pc] := by
  rcases (exec_effect h).sq_cases with hsame | ⟨-, -, hpush⟩ | ⟨hi, -⟩
  · exact absurd hsame hne
  · exact hpush
  · cases hi

/-- The same for the curly opener and its call stack. -/
theorem cu_of_loopne (h : exec .loopne s = .next t) (hne : t.cu ≠ s.cu) : t.cu = s.cu ++ [s.pc] := by
  rcases (exec_effect h).cu_cases with hsame | ⟨-, -, hpush⟩ | ⟨hi, -⟩
  · exact absurd hsame hne
  · exact hpush
  · cases hi

/-- Settles O30: the opener's entry is on top of the call stack that the closer finds. -/
theorem closerUndoesItsOpenersEntry : Obligations.CloserUndoesItsOpenersEntry := by
  refine fun s t u => ⟨fun hexec hne hu => ?square, fun hexec hne hu => ?curly⟩
  case square => exact exec_endnz_of_concat (hu.trans (sq_of_loopnz hexec hne))
  case curly => exact exec_endne_of_concat (hu.trans (cu_of_loopne hexec hne))

end Sys2Proof.Machine
end

section
/-! SUPPORT. Register store and load (45_registers.md): `STORE` is two pops and a register write, `LOAD` pushes what it reads as
an immediate is pushed, and a read sees the last write through its index. -/

namespace Sys2Proof.Machine

open State

variable {s t : State} {l : List Byte} {i v ch : Byte}

/-! ### STORE -/

theorem exec_store : exec .store s = s.settle (s.popTwo >>= fun p => .ok (p.2.2.writeReg p.1 p.2.1).advance) := rfl

/-- The entry on top is the value, the one under it the index (R135). -/
theorem exec_store_of_concat (h : s.cur = l ++ [i, v]) :
    exec .store s = .next ((s.afterStack l (s.pc + 1)).writeReg i v) := by
  rw [exec_store, popTwo_concat h]
  rfl

theorem exec_store_of_short (h : s.cur.length < 2) (hch : s.memRead s.pc = some ch) :
    exec .store s = .next (s.afterFault .stackEmpty ch s.pc) := by
  rw [exec_store, popTwo_short h, error_bind, settle_error, raise_eq_afterFault hch]

/-- Settles O31: `STORE` writes one register of the state that two pops leave, and only they can stop it. -/
theorem storeWritesTheIndexedRegister : Obligations.StoreWritesTheIndexedRegister :=
  ⟨decodesAs_of_operatorTable (by decide), fun _ =>
    ⟨fun _ _ _ hcur => exec_store_of_concat hcur, fun _ hshort hch => exec_store_of_short hshort hch⟩⟩

/-! ### LOAD -/

theorem exec_load : exec .load s = s.settle (s.pop >>= fun p => p.2.pushImmediate (p.2.readReg p.1)) := rfl

/-- The push finds room even on a full stack, because the index was popped first (R136). -/
theorem exec_load_of_concat (h : s.cur = l ++ [i]) (hcap : s.cfg.dcap.holds s.cur.length = true) :
    exec .load s = .next (s.afterStack (l ++ [s.readReg i]) (s.pc + 1)) := by
  have hroom : (s.setCur l).cfg.dcap.isFull (s.setCur l).cur.length = false :=
    Capacity.not_full_of_lt hcap (by simp [h])
  simp [exec_load, pop_concat h, pushImmediate, push_of_room hroom, setCur_advance_eq]

theorem exec_load_of_empty (h : s.cur = []) (hch : s.memRead s.pc = some ch) :
    exec .load s = .next (s.afterFault .stackEmpty ch s.pc) := by
  rw [exec_load, pop_nil h, error_bind, settle_error, raise_eq_afterFault hch]

/-- Settles O32: `LOAD` is a pop, which only the empty stack stops, and a push into the room it leaves. -/
theorem loadPushesTheIndexedRegister : Obligations.LoadPushesTheIndexedRegister :=
  ⟨decodesAs_of_operatorTable (by decide), fun _ =>
    ⟨fun _ _ hcur hcap => exec_load_of_concat hcur hcap, fun _ hempty hch => exec_load_of_empty hempty hch⟩⟩

/-! ### The round trip -/

/-- A register read depends on the registers alone (10_state.md R21). -/
theorem State.readReg_congr (h : t.reg = s.reg) (i : Byte) : t.readReg i = s.readReg i := by
  rw [readReg, readReg, h]

/-- Settles O33: what the load pushes is a read of the registers after the store's one write. -/
theorem storeThenLoadRoundTrip : Obligations.StoreThenLoadRoundTrip := by
  intro s u l m i j v hs hu hcap
  refine ⟨_, exec_store_of_concat hs, fun hreg => ?_⟩
  have hread : u.readReg j = if j = i then v else s.readReg j :=
    (readReg_congr hreg j).trans (readReg_writeReg (s.afterStack l (s.pc + 1)) i v j)
  rw [exec_load_of_concat hu hcap, hread]
  rfl

end Sys2Proof.Machine
end

section
/-! SUPPORT. The literals (46_literals.md): where the two scans end, `STR`'s whole-body push against the loop of single pushes,
the value of a numeric literal, and every outcome of the two instructions. -/

namespace Sys2Proof

variable {esc : Option Byte} {tail : List Byte}

/-! ### Decoding from the opening quote -/

theorem decode_eq_str_iff {lit : StrLit} : decode esc (0x22#8 :: tail) = .ok (.str lit) ↔ decodeStr esc tail = lit := by
  have hquote : decode esc (0x22#8 :: tail) = .ok (.str (decodeStr esc tail)) := rfl
  simp [hquote]

theorem decode_eq_num_iff {lit : NumLit} : decode esc (0x27#8 :: tail) = .ok (.num lit) ↔ decodeNum tail = lit := by
  have hquote : decode esc (0x27#8 :: tail) = .ok (.num (decodeNum tail)) := rfl
  simp [hquote]

/-- Settles O5: the digits are passed over, and what follows them decides. -/
theorem numericScanEndsAtFirstNonDigit : Obligations.NumericScanEndsAtFirstNonDigit := by
  intro esc ds tail hdigits
  have hds : ∀ d ∈ ds, isDigit d = true := fun d hd => isDigit_iff.mpr (hdigits d hd)
  refine ⟨?programEnd, ?quote, ?other⟩
  case programEnd =>
    rintro rfl
    rw [List.append_nil]
    exact decode_eq_num_iff.mpr (decodeNum_unclosed hds)
  case quote =>
    rintro _ rest rfl rfl
    exact decode_eq_num_iff.mpr (decodeNum_closed hds rest)
  case other =>
    rintro c rest rfl hquote hnot
    have hc : isDigit c = false := by rwa [← Bool.not_eq_true, isDigit_iff]
    exact decode_eq_num_iff.mpr (decodeNum_badChar hds hc hquote rest)

theorem StrLit.eq_unclosed_iff {lit : StrLit} : lit = .unclosed ↔ ¬∃ body, lit = .closed body := by
  cases lit with
  | closed body => simp
  | unclosed => simp

/-- A string literal is unclosed exactly when no well-formed body is followed by a quote (46_literals.md R140). -/
theorem decodeStr_eq_unclosed_iff : decodeStr esc tail = .unclosed ↔
    ¬∃ body rest, esc ≠ some 0x22#8 ∧ wfStrBody esc body = true ∧ tail = body ++ 0x22#8 :: rest := by
  simp only [StrLit.eq_unclosed_iff, decodeStr_eq_closed_iff, exists_and_left]

/-- Settles O6: the scan's two answers, each with the bodies it stands for. -/
theorem stringClosesAtFirstUnescapedQuote : Obligations.StringClosesAtFirstUnescapedQuote :=
  fun _ _ => ⟨fun _ => decode_eq_str_iff.trans decodeStr_eq_closed_iff, decode_eq_str_iff.trans decodeStr_eq_unclosed_iff⟩

end Sys2Proof

namespace Sys2Proof.Machine

open State

variable {s : State} {body ds : List Byte} {ch : Byte}

/-! ### The loop of pushes -/

/-- With room for all of them, pushing bytes one by one appends them (20_memory.md R42). -/
theorem State.foldlM_push_of_room {l : List Byte} (h : s.cfg.dcap.holds (s.cur.length + l.length) = true) :
    l.foldlM (fun t b => t.push b) s = .ok (s.setCur (s.cur ++ l)) := by
  induction l generalizing s with
  | nil => simp
  | cons b l ih =>
    have hroom : s.cfg.dcap.isFull s.cur.length = false := Capacity.not_full_of_lt h (by simp)
    have hrest : (s.setCur (s.cur ++ [b])).cfg.dcap.holds ((s.setCur (s.cur ++ [b])).cur.length + l.length) = true := by
      simpa [Nat.add_assoc, Nat.add_comm 1] using h
    rw [List.foldlM_cons, push_of_room hroom, ok_bind, ih hrest]
    simp

/-- Settles O35: both append the reversed body. -/
theorem stringPushIsALoopOfPushes : Obligations.StringPushIsALoopOfPushes := by
  intro s body hroom
  rw [pushBody_of_room hroom, foldlM_push_of_room (by rwa [List.length_reverse])]

/-! ### The value of a numeric literal -/

/-- One digit of the accumulator, whose byte stands for the number `n` modulo 256 (46_literals.md R142). -/
theorem ofNat_mul_ten_add_digit {d : Byte} (h : 0x30 ≤ d.toNat) (n : Nat) :
    BitVec.ofNat 8 n * 10#8 + (d - 0x30#8) = BitVec.ofNat 8 (n * 10 + (d.toNat - 0x30)) := by
  have hd : d - 0x30#8 = BitVec.ofNat 8 (d.toNat - 0x30) := by
    apply BitVec.eq_of_toNat_eq
    rw [BitVec.toNat_sub, BitVec.toNat_ofNat, BitVec.toNat_ofNat]
    omega
  rw [hd, BitVec.ofNat_add, BitVec.ofNat_mul]

/-- Reducing after every digit gives the byte that one reduction at the end gives (46_literals.md R142,
41_arithmetic_logic.md R99). -/
theorem numValue_eq_ofNat (h : ∀ d ∈ ds, 0x30 ≤ d.toNat) :
    numValue ds = BitVec.ofNat 8 (ds.foldl (fun n d => n * 10 + (d.toNat - 0x30)) 0 % 256) := by
  have hmod (n : Nat) : BitVec.ofNat 8 (n % 256) = BitVec.ofNat 8 n := by
    apply BitVec.eq_of_toNat_eq
    simp
  rw [hmod, numValue]
  refine List.foldl_rel (r := fun acc n => acc = BitVec.ofNat 8 n) rfl ?_
  rintro d hd _ n rfl
  exact ofNat_mul_ten_add_digit (h d hd) n

/-! ### NUM -/

theorem exec_num_closed : exec (.num (.closed ds)) s =
    s.settle (s.push (numValue ds) >>= fun t => .ok (t.setPc (s.pc + ds.length + 2))) := by
  have hpc : s.pc + ds.length + 2 = s.pc + 1 + ds.length + 1 := by omega
  rw [hpc]
  rfl

theorem exec_num_badChar (k : Nat) : exec (.num (.badChar k)) s = s.raise .numericBadChar (s.pc + 1 + k) := rfl

theorem exec_num_unclosed : exec (.num .unclosed) s = s.raise .unclosedNumeric s.pc := rfl

theorem exec_num_of_room (h : s.cfg.dcap ≠ some s.cur.length) :
    exec (.num (.closed ds)) s = .next (s.afterStack (s.cur ++ [numValue ds]) (s.pc + ds.length + 2)) := by
  rw [exec_num_closed, push_of_room (Capacity.isFull_false_iff.mpr h)]
  rfl

theorem exec_num_of_full (h : s.cfg.dcap = some s.cur.length) (hch : s.memRead s.pc = some ch) :
    exec (.num (.closed ds)) s = .next (s.afterFault .alloc ch s.pc) := by
  rw [exec_num_closed, push_of_full (Capacity.isFull_iff.mpr h), error_bind, settle_error, raise_eq_afterFault hch]

/-- Settles O36: the value pushed is the accumulator's, and the three faults come from the form and from the full stack. -/
theorem numericLiteralPushesNumberModulo256 : Obligations.NumericLiteralPushesNumberModulo256 := by
  refine fun s ds => ⟨fun hdigits hroom => ?room, fun _ hfull hch => exec_num_of_full hfull hch, fun _ k hch => ?badChar,
    fun _ hch => ?unclosed⟩
  case room =>
    have hlow : ∀ d ∈ ds, 0x30 ≤ d.toNat := fun d hd => (hdigits d hd).1
    rw [exec_num_of_room hroom, numValue_eq_ofNat hlow]
  case badChar => rw [exec_num_badChar, raise_eq_afterFault hch]
  case unclosed => rw [exec_num_unclosed, raise_eq_afterFault hch]

/-! ### STR -/

theorem exec_str_closed : exec (.str (.closed body)) s =
    s.settle (s.pushBody body >>= fun t => .ok (t.setPc (s.pc + body.length + 2))) := by
  have hpc : s.pc + body.length + 2 = s.pc + 1 + body.length + 1 := by omega
  rw [hpc]
  rfl

theorem exec_str_unclosed : exec (.str .unclosed) s = s.raise .unclosedString s.pc := rfl

/-- Settles O34: the room test of the whole-body push comes before any byte is pushed. -/
theorem stringLiteralPushesItsBodyReversed : Obligations.StringLiteralPushesItsBodyReversed := by
  refine fun s body => ⟨fun hroom => ?room, fun _ hfull hch => ?full, fun _ hch => ?unclosed⟩
  case room =>
    rw [exec_str_closed, pushBody_of_room hroom]
    rfl
  case full => rw [exec_str_closed, pushBody_of_full hfull, error_bind, settle_error, raise_eq_afterFault hch]
  case unclosed => rw [exec_str_unclosed, raise_eq_afterFault hch]

end Sys2Proof.Machine
end

section
/-! SUPPORT. The halt and reset (70_reset_and_hazards.md): no step follows the halt, and what reset makes of any state. -/

namespace Sys2Proof.Machine

open State

variable {s : State}

theorem step_ne_next_of_stopped (h : s.run ≠ .running) (u : State) : step s ≠ .next u := by
  rw [stoppedMachineTakesNoStep s h]
  nofun

/-- Settles O9: the halt writes `run`, and a stopped machine takes no step. -/
theorem stepAtTheEndHalts : Obligations.StepAtTheEndHalts :=
  fun _ hrun hfits hpc => ⟨step_at_end hrun hfits hpc, step_ne_next_of_stopped (by simp)⟩

/-- Settles O44: the core's fields are those of the reset state, the run's parameters those of the state before. -/
theorem resetGivesTheInitialState : Obligations.ResetGivesTheInitialState := by
  obtain ⟨hvec, hsel, hsq, hcu, hpc, hrun, hfault, hout⟩ := resetStateHasTheSpecValues
  exact fun _ => ⟨hvec, hsel, hsq, hcu, hpc, hrun, hfault, hout, rfl, rfl, rfl⟩

/-- An empty stack is within every capacity (10_state.md R33). -/
theorem Capacity.holds_zero (c : Capacity) : c.holds 0 = true :=
  Capacity.holds_iff.mpr fun k _ => Nat.zero_le k

theorem State.sameRun_hardReset (s : State) : s.SameRun s.hardReset := ⟨rfl, rfl, rfl, rfl⟩

/-- Settles O49: reset keeps the program's form and empties every stack. -/
theorem resetMakesLegal : Obligations.ResetMakesLegal := by
  intro s hloaded
  obtain ⟨hvec, -, hsq, hcu, -⟩ := resetGivesTheInitialState s
  refine ⟨hloaded.of_sameRun s.sameRun_hardReset, ⟨fun k => ?stk, ?sq, ?cu⟩, ⟨?callsSq, ?callsCu⟩, Nat.zero_le _, rfl⟩
  case stk => rw [(hvec k).2]; exact Capacity.holds_zero _
  case sq => rw [hsq]; exact Capacity.holds_zero _
  case cu => rw [hcu]; exact Capacity.holds_zero _
  case callsSq => simp [hsq]
  case callsCu => simp [hcu]

end Sys2Proof.Machine
end

section
/-! SUPPORT. Faults (60_exceptions.md): what a fault leaves unchanged (R152), its codes and statuses (R151, R154), and which
instructions raise which kind (R154). -/

namespace Sys2Proof.Machine

open State

variable {i : Instr} {s t : State}

/-! ### Precision -/

/-- An instruction that stops the machine wrote no data of the core: every other effect leaves `run` as it was. -/
theorem Effect.sameData_of_stopped (h : Effect i s t) (hrun : s.run = .running) (hstop : t.run ≠ .running) :
    s.SameData t := by
  cases h with
  | faulted kind ch hch hk => exact ⟨rfl, rfl, rfl, rfl, rfl, rfl, rfl⟩
  | badChar k ch hi hch => exact ⟨rfl, rfl, rfl, rfl, rfl, rfl, rfl⟩
  | inputLost r rest ch hi hin hch => exact ⟨rfl, rfl, rfl, rfl, rfl, rfl, rfl⟩
  | entered c hi hroom => exact absurd ((setCalls_run s c _).trans hrun) hstop
  | returned c l p hi hc => exact absurd ((setCalls_run s c l).trans hrun) hstop
  | _ => exact absurd hrun hstop

/-- Settles O37: the effect that stopped the machine, with the record it wrote. -/
theorem faultsArePreciseAndTerminal : Obligations.FaultsArePreciseAndTerminal := by
  intro i s t hrun hexec hstop
  have h := exec_effect hexec
  refine ⟨h.sameData_of_stopped hrun hstop, h.sameRun, h.input_eq, ?record, step_ne_next_of_stopped hstop⟩
  case record =>
    rcases h.status_cases with ⟨er, -⟩ | ⟨r, hr, hfault, -, hpos, hch, haux⟩
    · exact absurd (er.trans hrun) hstop
    · refine ⟨r, hfault, hr.trans r.kind.status_eq, hpos, hch, ?_⟩
      rcases haux with ⟨hk, ha⟩ | ⟨k, hi, hk, ha⟩
      · exact ⟨fun _ => ha.trans hpos.symm, fun hbad => absurd hbad hk⟩
      · exact ⟨fun hne => absurd hk hne, fun _ => ⟨k, hi, ha⟩⟩

/-! ### Codes and statuses -/

theorem FaultKind.exitStatus_status (k : FaultKind) : k.status.exitStatus = some (if k = .alloc then 2 else 1) := by
  cases k <;> rfl

/-- Settles O39: a fault that is taken sets `run` to its kind's status. -/
theorem faultCodesAndExitStatuses : Obligations.FaultCodesAndExitStatuses := by
  refine ⟨rfl, rfl, rfl, fun s t k aux hraise => ?_⟩
  obtain ⟨ch, -, rfl⟩ := raise_next hraise
  exact k.exitStatus_status

/-! ### Causes -/

/-- The answer of `i` is no fault, or one that R154 lists for `i`. -/
def FaultsAsListed (i : Instr) (o : Host.Outcome State Fault Refusal) : Prop :=
  ∀ t r, o = .next t → t.run ≠ .running → t.fault = some r → mayRaise r.kind i = true

theorem guardZero_error {op : Byte → Byte → Byte} {a b : Byte} {k : FaultKind} (h : guardZero op a b = .error k) :
    k = .divZero := by
  by_cases hb : b = 0
  · rw [hb, guardZero_zero] at h
    exact (Except.error.inj h).symm
  · rw [guardZero_of_ne hb] at h
    cases h

namespace FaultsAsListed

variable {o : Host.Outcome State Fault Refusal}

theorem of_running (h : o = .next t) (hrun : t.run = .running) : FaultsAsListed i o := by
  intro u r hu hstop
  cases h.symm.trans hu
  exact absurd hrun hstop

theorem of_fault {r : FaultRecord} (h : o = .next t) (hr : t.fault = some r) (hk : mayRaise r.kind i = true) :
    FaultsAsListed i o := by
  intro u q hu _ hq
  cases h.symm.trans hu
  cases hr.symm.trans hq
  exact hk

theorem of_noStep (h : ∀ t, o ≠ .next t) : FaultsAsListed i o :=
  fun t _ ht => absurd ht (h t)

/-! The shapes that several instructions share, inside a program and from a running state. -/

variable {ch : Byte} (hrun : s.run = .running) (hch : s.memRead s.pc = some ch)
include hch

theorem of_raise {k : FaultKind} {aux : Nat} (h : o = s.raise k aux) (hk : mayRaise k i = true) : FaultsAsListed i o :=
  of_fault (h.trans (raise_eq_afterFault hch)) rfl hk

include hrun

theorem of_pushImmediate {v : Byte} (h : o = s.settle (s.pushImmediate v)) (halloc : mayRaise .alloc i = true) :
    FaultsAsListed i o := by
  by_cases hfull : s.cfg.dcap = some s.cur.length
  · exact of_fault (h.trans (settle_pushImmediate_of_full hfull hch)) rfl halloc
  · exact of_running (h.trans (settle_pushImmediate_of_room hfull)) hrun

/-- The push of a `BINOP` finds room in a stack within its capacity, so that only the pops and the operation raise. -/
theorem of_binop {op : Byte → Byte → Except FaultKind Byte} (hcap : s.cfg.dcap.holds s.cur.length = true)
    (h : o = s.settle (s.binop op)) (hempty : mayRaise .stackEmpty i = true)
    (hop : ∀ a b k, op a b = .error k → mayRaise k i = true) : FaultsAsListed i o := by
  rcases Nat.lt_or_ge s.cur.length 2 with hshort | htwo
  · exact of_fault (h.trans (settle_binop_short hshort hch)) rfl hempty
  · obtain ⟨l, a, b, hcur⟩ := exists_cur_concat_pair htwo
    cases hr : op a b with
    | ok r => exact of_running (h.trans (settle_binop_next hcur hr hcap)) hrun
    | error k => exact of_fault (h.trans (settle_binop_opError hcur hr hch)) rfl (hop a b k hr)

theorem of_emitTop {text : Byte → List Byte} (h : o = s.settle (s.emitTop text))
    (hempty : mayRaise .stackEmpty i = true) : FaultsAsListed i o := by
  rcases List.eq_nil_or_concat' s.cur with hcur | ⟨l, v, hcur⟩
  · exact of_fault (h.trans (settle_emitTop_of_empty text hcur hch)) rfl hempty
  · exact of_running (h.trans (settle_emitTop_of_concat text hcur)) hrun

theorem of_enterBody {c : CallStack} (h : o = s.settle (s.enterBody c)) (halloc : mayRaise .alloc i = true) :
    FaultsAsListed i o := by
  by_cases hfull : s.cfg.ccap = some (s.calls c).length
  · exact of_fault (h.trans (settle_enterBody_of_full hfull hch)) rfl halloc
  · exact of_running (h.trans (settle_enterBody_of_room hfull)) ((setCalls_run s c _).trans hrun)

theorem of_skipBody {a b : Byte} (h : o = s.settle (s.skipBody a b)) (hopen : mayRaise .unmatchedOpen i = true) :
    FaultsAsListed i o := by
  cases hscan : s.scan a b (s.pc + 1) with
  | none => exact of_fault (h.trans (settle_skipBody_notFound hscan hch)) rfl hopen
  | some m => exact of_running (h.trans (settle_skipBody_found hscan)) hrun

theorem of_returnToOpener {c : CallStack} (h : o = s.settle (s.returnToOpener c))
    (hclose : mayRaise .unmatchedClose i = true) : FaultsAsListed i o := by
  rcases List.eq_nil_or_concat' (s.calls c) with hcalls | ⟨q, p, hcalls⟩
  · exact of_fault (h.trans (settle_returnToOpener_of_empty hcalls hch)) rfl hclose
  · exact of_running (h.trans (settle_returnToOpener_of_concat hcalls)) ((setCalls_run s c q).trans hrun)

end FaultsAsListed

open FaultsAsListed

/-- Inside a program and within the stack's capacity, each instruction raises only what R154 lists for it. -/
theorem exec_faultsAsListed {ch : Byte} (hrun : s.run = .running) (hcap : s.cfg.dcap.holds s.cur.length = true)
    (hch : s.memRead s.pc = some ch) (i : Instr) : FaultsAsListed i (exec i s) := by
  cases i with
  | pushd d => exact of_pushImmediate hrun hch exec_pushd rfl
  | pushl c => exact of_pushImmediate hrun hch exec_pushl rfl
  | add => exact of_binop hrun hch hcap exec_add rfl nofun
  | sub => exact of_binop hrun hch hcap exec_sub rfl nofun
  | mul => exact of_binop hrun hch hcap exec_mul rfl nofun
  | and => exact of_binop hrun hch hcap exec_and rfl nofun
  | or => exact of_binop hrun hch hcap exec_or rfl nofun
  | xor => exact of_binop hrun hch hcap exec_xor rfl nofun
  | div => exact of_binop hrun hch hcap exec_div rfl fun _ _ _ h => guardZero_error h ▸ rfl
  | mod => exact of_binop hrun hch hcap exec_mod rfl fun _ _ _ h => guardZero_error h ▸ rfl
  | drop =>
    rcases List.eq_nil_or_concat' s.cur with hcur | ⟨l, v, hcur⟩
    · exact of_fault (exec_drop_of_empty hcur hch) rfl rfl
    · exact of_running (exec_drop_of_concat hcur) hrun
  | dup =>
    rcases List.eq_nil_or_concat' s.cur with hcur | ⟨l, v, hcur⟩
    · exact of_fault (exec_dup_of_empty hcur hch) rfl rfl
    · exact of_pushImmediate hrun hch (exec_dup_of_concat hcur) rfl
  | swap =>
    rcases Nat.lt_or_ge s.cur.length 2 with hshort | htwo
    · exact of_fault (exec_swap_of_short hshort hch) rfl rfl
    · obtain ⟨l, a, b, hcur⟩ := exists_cur_concat_pair htwo
      exact of_running (exec_swap_of_concat hcur hcap) hrun
  | next => exact of_running exec_next hrun
  | prev => exact of_running exec_prev hrun
  | outb => exact of_emitTop hrun hch exec_outb rfl
  | outd => exact of_emitTop hrun hch exec_outd rfl
  | inb =>
    cases hin : s.input with
    | nil => exact of_noStep (by rw [exec_inb_of_noAnswer hin]; nofun)
    | cons r rest => exact of_pushImmediate (s := s.dropAnswer rest) hrun hch (exec_inb_of_answer hin) rfl
  | loopnz =>
    rcases List.eq_nil_or_concat' s.cur with hcur | ⟨l, v, hcur⟩
    · exact of_fault (exec_loopnz_of_empty hcur hch) rfl rfl
    · by_cases hv : v = 0
      · exact of_skipBody hrun hch (exec_loopnz_of_zero (hv ▸ hcur)) rfl
      · exact of_enterBody hrun hch (exec_loopnz_of_nonzero hcur hv) rfl
  | loopne =>
    by_cases hcur : s.cur = []
    · exact of_skipBody hrun hch (exec_loopne_of_empty hcur) rfl
    · exact of_enterBody hrun hch (exec_loopne_of_nonempty hcur) rfl
  | endnz => exact of_returnToOpener (c := .square) hrun hch rfl rfl
  | endne => exact of_returnToOpener (c := .curly) hrun hch rfl rfl
  | store =>
    rcases Nat.lt_or_ge s.cur.length 2 with hshort | htwo
    · exact of_fault (exec_store_of_short hshort hch) rfl rfl
    · obtain ⟨l, x, v, hcur⟩ := exists_cur_concat_pair htwo
      exact of_running (exec_store_of_concat hcur) hrun
  | load =>
    rcases List.eq_nil_or_concat' s.cur with hcur | ⟨l, x, hcur⟩
    · exact of_fault (exec_load_of_empty hcur hch) rfl rfl
    · exact of_running (exec_load_of_concat hcur hcap) hrun
  | str lit =>
    cases lit with
    | unclosed => exact of_raise hch exec_str_unclosed rfl
    | closed body =>
      obtain ⟨hroom, hfull, -⟩ := stringLiteralPushesItsBodyReversed s body
      cases hfits : s.cfg.dcap.holds (s.cur.length + body.length) with
      | true => exact of_running (hroom hfits) hrun
      | false => exact of_fault (hfull ch hfits hch) rfl rfl
  | num lit =>
    cases lit with
    | unclosed => exact of_raise hch exec_num_unclosed rfl
    | badChar k => exact of_raise hch (exec_num_badChar k) rfl
    | closed ds =>
      by_cases hfull : s.cfg.dcap = some s.cur.length
      · exact of_fault (exec_num_of_full hfull hch) rfl rfl
      · exact of_running (exec_num_of_room hfull) hrun
  | nop c => exact of_running (exec_nop c) hrun

/-- Settles O38: a fault is taken inside the program only, where each instruction raises what is listed for it. -/
theorem faultKindsComeFromTheirInstructions : Obligations.FaultKindsComeFromTheirInstructions := by
  intro i s t r hrun hcap hexec hstop hfault
  rcases (exec_effect hexec).status_cases with ⟨er, -⟩ | ⟨q, -, -, -, -, hch, -⟩
  · exact absurd (er.trans hrun) hstop
  · exact exec_faultsAsListed hrun hcap hch i t r hexec hstop hfault

end Sys2Proof.Machine
end
